-- ==== Sys2Proof/Word.lean ====
section
/-! DEFINITION. The word types of the octavo hash core (00_scope.md R10, R12). Every word is unsigned;
addition, AND, OR, XOR and complement are those of `BitVec` (R11: addition modulo 2^W, no carry out). -/

namespace Sys2Proof

/-- A byte is 8 bits (R12). A byte sequence is a `List Byte`. -/
abbrev Byte := BitVec 8

/-- The word of the 32-bit cores (R7, column W). -/
abbrev Word32 := BitVec 32

/-- The word of the 64-bit core, and the width of one register of `H` (R31). -/
abbrev Word64 := BitVec 64

end Sys2Proof
end

