-- ==== Sys2Proof/Config.lean ====
section
/-! DEFINITION. What this hardware fixes once and no command changes (00_scope.md R7, R8). The
per-algorithm parameters stand in Machine/Params.lean. The core has no free value (20_memory.md R78),
so nothing here is opaque. -/

namespace Sys2Proof.Config

/-- Number of registers in the file `H` (R7, R31). -/
abbrev hRegisters : Nat := 8

/-- Capacity of the pending buffer `BUF` in bytes (R7, R34). -/
abbrev bufBytes : Nat := 128

/-- What a register of `H` holds after reset. The spec: "unspecified (any value)" (10_state.md R44).
DESIGN CHOICE, unsafe: log entry 2. -/
def resetH : Word64 := 0

/-- What a byte of `BUF` holds after reset. The spec: "unspecified (any value)" (10_state.md R44).
DESIGN CHOICE, unsafe: log entry 3. -/
def resetBuf : Byte := 0

end Sys2Proof.Config
end

