-- ==== Sys2Proof/Syntax.lean ====
section
/-! DEFINITION. The commands of the octavo hash core, one constructor per row of
spec/opcode_table.json (30_encoding.md R93), and the two sets of names they use. -/

namespace Sys2Proof

/-- The seven algorithms (00_scope.md R3). Their code numbers are in Decode.lean. -/
inductive Alg where
  | sha224
  | sha256
  | sha384
  | sha512
  | sha512t224
  | sha512t256
  | ripemd160
  deriving DecidableEq, Repr

/-- The fault codes 1 to 9 of the hardware (60_exceptions.md R341). Raising one is an effect of the
machine (R343), not a stop of the model. Their numbers are in Machine/Flags.lean. -/
inductive FaultCode where
  | illegalOpcode
  | reservedOperand
  | badAlg
  | noInstance
  | updateAfterFinal
  | doubleFinal
  | lengthOverflow
  | useAfterFinal
  | blockLength
  deriving DecidableEq, Repr

/-- A command: its header and its payload (00_scope.md R18, 30_encoding.md R90). The count `n` of
UPDATE and COMPRESS is the length of the payload the constructor carries (R92: `data = Recv(n)`;
log entry 8). -/
inductive Instr where
  /-- INIT, opcode 0x01, format A. -/
  | init (alg : Alg)
  /-- UPDATE, opcode 0x02, format N. -/
  | update (data : List Byte)
  /-- FINAL, opcode 0x03, format Z. -/
  | final
  /-- COMPRESS, opcode 0x04, format N. -/
  | compress (data : List Byte)
  /-- READ_STATE, opcode 0x05, format Z. -/
  | readState
  /-- STATUS, opcode 0x06, format Z. -/
  | status
  deriving DecidableEq, Repr

end Sys2Proof
end

