-- ==== Sys2Proof/WellFormed.lean ====
section
/-! DEFINITION. Which terms of `Instr` an encoding spells: a count of at most 24 bits
(30_encoding.md R91, R92: `n` is 0 to 2^24 − 1). Algorithm codes are a closed type, so INIT has no
ill-formed term. -/

namespace Sys2Proof

/-- The payload fits the 24-bit count of format N (MAXCHUNK, 00_scope.md R7). -/
def Instr.wellFormed : Instr → Bool
  | .init _ => true
  | .update data => decide (data.length < 2 ^ 24)
  | .final => true
  | .compress data => decide (data.length < 2 ^ 24)
  | .readState => true
  | .status => true

/-- `wellFormed` as a proposition. -/
abbrev Instr.WellFormed (i : Instr) : Prop := i.wellFormed = true

end Sys2Proof
end

