-- ==== Sys2Proof/Decode.lean ====
section
/-! DEFINITION. Byte order helpers, the decoder of 30_encoding.md R90–R96 (total on any bytes) and,
after it, the encoder written from the same tables. -/

namespace Sys2Proof

/-! ### Bytes and words (00_scope.md R13) -/

/-- `be(s)`: the value of `s` read most-significant byte first. -/
def be (s : List Byte) : Nat := s.foldl (fun acc b => acc * 256 + b.toNat) 0

/-- `le(s)`: the value of `s` read least-significant byte first. -/
def le : List Byte → Nat
  | [] => 0
  | b :: s => b.toNat + 256 * le s

/-- `to_le(x, k)`: the `k` bytes whose `le` value is `x mod 256^k`. -/
def toLE (x : Nat) : Nat → List Byte
  | 0 => []
  | k + 1 => BitVec.ofNat 8 x :: toLE (x / 256) k

/-- `to_be(x, k)`: the `k` bytes whose `be` value is `x mod 256^k`. -/
def toBE (x k : Nat) : List Byte := (toLE x k).reverse

/-- `zeros(n)` (R12). -/
def zeros (n : Nat) : List Byte := List.replicate n 0

/-! ### Header fields (30_encoding.md R90, R91) -/

/-- `hdr[31:24]`. -/
def headerOp (hdr : Word32) : BitVec 8 := hdr.extractLsb 31 24

/-- `hdr[23:0]`, which is the count `n` of format N. -/
def headerOperand (hdr : Word32) : BitVec 24 := hdr.extractLsb 23 0

/-- `hdr[23:4]`, the reserved bits of format A. -/
def headerReservedA (hdr : Word32) : BitVec 20 := hdr.extractLsb 23 4

/-- `hdr[3:0]`, the `alg` field of format A. -/
def headerAlg (hdr : Word32) : BitVec 4 := hdr.extractLsb 3 0

/-- The payload length `P` of a command, known from the header alone (R96). -/
def payloadLength (hdr : Word32) : Nat :=
  if headerOp hdr = 0x02 ∨ headerOp hdr = 0x04 then (headerOperand hdr).toNat else 0

/-! ### Algorithm codes (00_scope.md R3) -/

/-- The algorithm a code selects; codes 0 and 8 to 15 select none (R94). -/
def algOfCode (c : BitVec 4) : Option Alg :=
  if c = 1 then some .sha224
  else if c = 2 then some .sha256
  else if c = 3 then some .sha384
  else if c = 4 then some .sha512
  else if c = 5 then some .sha512t224
  else if c = 6 then some .sha512t256
  else if c = 7 then some .ripemd160
  else none

/-- The code of an algorithm. -/
def codeOfAlg : Alg → BitVec 4
  | .sha224 => 1
  | .sha256 => 2
  | .sha384 => 3
  | .sha512 => 4
  | .sha512t224 => 5
  | .sha512t256 => 6
  | .ripemd160 => 7

/-! ### The decoder -/

/-- The verdict of R95 on a header, with the payload that came behind it. The verdict depends on the
header alone; the payload only becomes the operand of UPDATE and COMPRESS. -/
def decodeCommand (hdr : Word32) (data : List Byte) : Except FaultCode Instr :=
  if headerOp hdr = 0x01 then
    if headerReservedA hdr ≠ 0 then .error .reservedOperand
    else match algOfCode (headerAlg hdr) with
      | none => .error .badAlg
      | some a => .ok (.init a)
  else if headerOp hdr = 0x02 then .ok (.update data)
  else if headerOp hdr = 0x03 then
    if headerOperand hdr ≠ 0 then .error .reservedOperand else .ok .final
  else if headerOp hdr = 0x04 then .ok (.compress data)
  else if headerOp hdr = 0x05 then
    if headerOperand hdr ≠ 0 then .error .reservedOperand else .ok .readState
  else if headerOp hdr = 0x06 then
    if headerOperand hdr ≠ 0 then .error .reservedOperand else .ok .status
  else .error .illegalOpcode

/-- One command cut off the front of a byte stream: header, payload, the rest. -/
structure Framed where
  hdr : Word32
  data : List Byte
  rest : List Byte
  deriving DecidableEq, Repr

/-- The header at the front of a byte stream, `be(Recv(4))` (R90). -/
def frontHeader (bs : List Byte) : Word32 := BitVec.ofNat 32 (be (bs.take 4))

/-- Cut one command of `4 + P` bytes off the front (R96); `none` when fewer bytes have arrived
(70_reset_and_hazards.md R392). -/
def frame (bs : List Byte) : Option Framed :=
  if bs.length < 4 then none
  else if bs.length < 4 + payloadLength (frontHeader bs) then none
  else some
    { hdr := frontHeader bs
      data := (bs.drop 4).take (payloadLength (frontHeader bs))
      rest := bs.drop (4 + payloadLength (frontHeader bs)) }

/-- What the decoder says of a byte stream. -/
inductive Decoded where
  /-- Fewer bytes than one command needs. -/
  | incomplete
  /-- The first command is illegal, with its fault code; the rest of the stream follows it (R94, R96). -/
  | illegal (code : FaultCode) (rest : List Byte)
  /-- The first command and the rest of the stream. -/
  | command (i : Instr) (rest : List Byte)
  deriving DecidableEq, Repr

/-- The decoder, total on any bytes. -/
def decode (bs : List Byte) : Decoded :=
  match frame bs with
  | none => .incomplete
  | some f =>
    match decodeCommand f.hdr f.data with
    | .error c => .illegal c f.rest
    | .ok i => .command i f.rest

/-! ### The encoder -/

/-- A header from its opcode and its 24-bit operand (R90). -/
def header (op : BitVec 8) (operand : BitVec 24) : Word32 := op ++ operand

/-- The header of a command, from the rows of R93. -/
def encodeHeader : Instr → Word32
  | .init a => header 0x01 ((codeOfAlg a).setWidth 24)
  | .update data => header 0x02 (BitVec.ofNat 24 data.length)
  | .final => header 0x03 0
  | .compress data => header 0x04 (BitVec.ofNat 24 data.length)
  | .readState => header 0x05 0
  | .status => header 0x06 0

/-- The payload of a command (R91). -/
def payload : Instr → List Byte
  | .init _ => []
  | .update data => data
  | .final => []
  | .compress data => data
  | .readState => []
  | .status => []

/-- The header as the four bytes of the stream, most significant first (R90, 20_memory.md R70). -/
def headerBytes (hdr : Word32) : List Byte := toBE hdr.toNat 4

/-- The bytes of a command: header, then payload. -/
def encode (i : Instr) : List Byte := headerBytes (encodeHeader i) ++ payload i

/-! ### Words as spec/opcode_table.json numbers them -/

/-- The stream bytes of the command whose bits are the low `nbits` bits of `w`, all higher bits zero:
bits 31..0 are the header word, sent most-significant byte first, and payload byte `k` is bits
`39 + 8k .. 32 + 8k` (log entry 14). -/
def tableWordBytes (nbits w : Nat) : List Byte :=
  headerBytes (BitVec.ofNat 32 (w % 2 ^ nbits)) ++
    (List.range (payloadLength (BitVec.ofNat 32 (w % 2 ^ nbits)))).map
      fun k => BitVec.ofNat 8 ((w % 2 ^ nbits) >>> (32 + 8 * k))

/-- The instruction the decoder reads from a word of the opcode table, if it accepts it. -/
def decodeTableWord (nbits w : Nat) : Option Instr :=
  match decode (tableWordBytes nbits w) with
  | .command i _ => some i
  | .illegal _ _ => none
  | .incomplete => none

end Sys2Proof
end

