-- ==== Sys2Proof/Machine/State.lean ====
section
/-! DEFINITION. The state of one octavo hash core (10_state.md R30), the reasons a step of the model
can stop, and the state after reset (R44). -/

namespace Sys2Proof.Machine

/-- The façade state PHASE (10_state.md R36). Values 5, 6 and 7 "are never held", so the type has no
name for them (log entry 7). The numbers are in Machine/Flags.lean. -/
inductive Phase where
  | idle
  | fresh
  | updating
  | finalized
  | faulted
  deriving DecidableEq, Repr

/-- Why a step of the model stops without a next state. The machine's own faults are not here: they
are effects (60_exceptions.md R343). -/
inductive Fault where
  /-- Raised by UPDATE, FINAL, COMPRESS and READ_STATE in a state whose PHASE says that an instance
  exists and whose ALG is 0. 10_state.md R43 items 3 and 6 say that no such state is ever held, and
  the parameters B(ALG), L(ALG), … have no value there. Safe (log entry 6). -/
  | algUnset
  deriving DecidableEq, Repr

/-- Why the model has no meaning for a command. -/
inductive Refusal where
  /-- An instruction whose meaning is not written. No arm of `exec` answers it. Safe. -/
  | notModelled (mnemonic : String)
  deriving DecidableEq, Repr

/-- The state of the core (10_state.md R30) and, last, the command bytes that have arrived and are
not consumed (20_memory.md R62; log entry 1). -/
structure State where
  /-- `H[0..7]`, the running hash state (R31). -/
  h : Vector Word64 Config.hRegisters
  /-- `BUF[0..127]`, the pending buffer (R34). -/
  buf : Vector Byte Config.bufBytes
  /-- `PLEN`, the number of bytes held in `BUF` (R34). -/
  plen : BitVec 8
  /-- `LEN`, the number of message bytes (R35). -/
  len : BitVec 64
  /-- `PHASE` (R36). -/
  phase : Phase
  /-- `ALG` (R37); `none` is the code 0. -/
  alg : Option Alg
  /-- `FCODE` (R38); `none` is the code 0. -/
  fcode : Option FaultCode
  /-- `cp`, the number of command bytes consumed since reset (R33). -/
  cp : Nat
  /-- `RESP`, the bytes emitted since reset (R41). -/
  resp : List Byte
  /-- The command bytes received and not consumed, the next one first. -/
  input : List Byte
  deriving DecidableEq, Repr

/-- The state after reset (10_state.md R44, 70_reset_and_hazards.md R380). -/
def State.reset : State where
  h := Vector.replicate Config.hRegisters Config.resetH
  buf := Vector.replicate Config.bufBytes Config.resetBuf
  plen := 0
  len := 0
  phase := .idle
  alg := none
  fcode := none
  cp := 0
  resp := []
  input := []

end Sys2Proof.Machine
end

