-- ==== Sys2Proof/Machine/Flags.lean ====
section
/-! DEFINITION. The fields of the status word and the word itself (10_state.md R36 to R39). The core has
no arithmetic flags (R42). -/

namespace Sys2Proof.Machine

/-- The value of PHASE (R36). -/
def phaseCode : Phase → BitVec 3
  | .idle => 0
  | .fresh => 1
  | .updating => 2
  | .finalized => 3
  | .faulted => 4

/-- The value of ALG (R37): 0 when no instance has been made. -/
def algCode : Option Alg → BitVec 4
  | none => 0
  | some a => codeOfAlg a

/-- The number of a fault code (60_exceptions.md R341). -/
def faultCode : FaultCode → BitVec 4
  | .illegalOpcode => 1
  | .reservedOperand => 2
  | .badAlg => 3
  | .noInstance => 4
  | .updateAfterFinal => 5
  | .doubleFinal => 6
  | .lengthOverflow => 7
  | .useAfterFinal => 8
  | .blockLength => 9

/-- The value of FCODE (R38): 0 when no fault was raised since reset. -/
def fcodeValue : Option FaultCode → BitVec 4
  | none => 0
  | some c => faultCode c

/-- The status word, assembled from the control registers (R39). -/
def State.statusWord (s : State) : Word32 :=
  (phaseCode s.phase).setWidth 32 ||| ((algCode s.alg).setWidth 32 <<< 4) |||
    (s.plen.setWidth 32 <<< 8) ||| ((fcodeValue s.fcode).setWidth 32 <<< 16)

end Sys2Proof.Machine
end

