-- ==== Sys2Proof/Machine/Ops.lean ====
section
/-! DEFINITION. The named operations on the state that the commands share: receiving a command
(00_scope.md R15), emitting, and raising a fault (60_exceptions.md R343). -/

namespace Sys2Proof.Machine

/-- A received command: its header, its payload, and the state once both are consumed. -/
structure Received where
  hdr : Word32
  data : List Byte
  after : State
  deriving DecidableEq, Repr

/-- `hdr <- be(Recv(4)); data <- Recv(P)` (44_digest_facade.md R281): the command leaves the stream and
`cp` advances by `4 + P`. `none` when fewer bytes have arrived: the core waits (R392). Log entry 9. -/
def State.receive (s : State) : Option Received :=
  match frame s.input with
  | none => none
  | some f =>
    some
      { hdr := f.hdr
        data := f.data
        after := { s with input := f.rest, cp := s.cp + 4 + payloadLength f.hdr } }

/-- `Emit(bs)` (R15): append to the response stream. -/
def State.emit (bs : List Byte) (s : State) : State := { s with resp := s.resp ++ bs }

/-- `raise Fault(code)` (R343): FCODE and PHASE, and nothing else. In the Faulted phase no fault can be
raised (R346), so nothing happens there: FCODE keeps the first fault's code (R38). -/
def State.raiseFault (c : FaultCode) (s : State) : State :=
  match s.phase with
  | .faulted => s
  | .idle => { s with fcode := some c, phase := .faulted }
  | .fresh => { s with fcode := some c, phase := .faulted }
  | .updating => { s with fcode := some c, phase := .faulted }
  | .finalized => { s with fcode := some c, phase := .faulted }

/-- The phase checks of UPDATE, FINAL, COMPRESS and READ_STATE, in the order of R342: in Idle the fault
is NO_INSTANCE, in Finalized it is the command's own code, in Faulted the command is discarded (R346).
In Fresh and Updating the body runs with the selected algorithm; ALG = 0 there is ruled out by
10_state.md R43 and stops the model (log entry 6). -/
def State.withInstance (afterFinal : FaultCode) (s : State) (body : Alg → State) :
    Host.Outcome State Fault Refusal :=
  match s.phase with
  | .faulted => .next s
  | .idle => .next (s.raiseFault .noInstance)
  | .finalized => .next (s.raiseFault afterFinal)
  | .fresh =>
    match s.alg with
    | none => .fault .algUnset
    | some a => .next (body a)
  | .updating =>
    match s.alg with
    | none => .fault .algUnset
    | some a => .next (body a)

end Sys2Proof.Machine
end

