-- ==== Sys2Proof/Machine/Params.lean ====
section
/-! DEFINITION. The configuration record of each algorithm (00_scope.md R3, R7; 44_digest_facade.md
R301): every field is a constant of the algorithm, none is set at run time. -/

namespace Sys2Proof.Machine

/-- `B(alg)`, the block size in bytes. -/
def blockBytes : Alg → Nat
  | .sha224 => 64
  | .sha256 => 64
  | .sha384 => 128
  | .sha512 => 128
  | .sha512t224 => 128
  | .sha512t256 => 128
  | .ripemd160 => 64

/-- `L(alg)`, the size of the length field in bytes. -/
def lengthBytes : Alg → Nat
  | .sha224 => 8
  | .sha256 => 8
  | .sha384 => 16
  | .sha512 => 16
  | .sha512t224 => 16
  | .sha512t256 => 16
  | .ripemd160 => 8

/-- `WB(alg)`, the bytes of one word; `W(alg)` is eight times as many bits. -/
def wordBytes : Alg → Nat
  | .sha224 => 4
  | .sha256 => 4
  | .sha384 => 8
  | .sha512 => 8
  | .sha512t224 => 8
  | .sha512t256 => 8
  | .ripemd160 => 4

/-- `SW(alg)`, the number of state words in use. -/
def stateWords : Alg → Nat
  | .sha224 => 8
  | .sha256 => 8
  | .sha384 => 8
  | .sha512 => 8
  | .sha512t224 => 8
  | .sha512t256 => 8
  | .ripemd160 => 5

/-- `OUT(alg)`, the number of bytes FINAL emits. -/
def outBytes : Alg → Nat
  | .sha224 => 28
  | .sha256 => 32
  | .sha384 => 48
  | .sha512 => 64
  | .sha512t224 => 28
  | .sha512t256 => 32
  | .ripemd160 => 20

/-- The byte order of an algorithm (20_memory.md R66, R67). -/
inductive ByteOrder where
  | big
  | little
  deriving DecidableEq, Repr

/-- Which byte order each algorithm uses, everywhere (R71). -/
def byteOrder : Alg → ByteOrder
  | .sha224 => .big
  | .sha256 => .big
  | .sha384 => .big
  | .sha512 => .big
  | .sha512t224 => .big
  | .sha512t256 => .big
  | .ripemd160 => .little

/-- `IV(alg)`, the vector INIT loads into `H` (R305). -/
def initialValue : Alg → Vector Word64 8
  | .sha224 => ivSha224
  | .sha256 => ivSha256
  | .sha384 => ivSha384
  | .sha512 => ivSha512
  | .sha512t224 => ivSha512t224
  | .sha512t256 => ivSha512t256
  | .ripemd160 => ivRipemd160

/-- The least message length, in bytes, whose bit count does not fit 64 bits (60_exceptions.md R345);
MAXMSG of 00_scope.md R7 is one less. -/
def lengthLimit : Nat := 2 ^ 61

end Sys2Proof.Machine
end

