-- ==== Sys2Proof/Machine/Operands.lean ====
section
/-! DEFINITION. The forms in which operands enter and leave a computation: the word operators of
00_scope.md R11, the message words of a block, and bytes in an algorithm's byte order. -/

namespace Sys2Proof.Machine

/-- `shr(a, n)`: logical right shift, zeros enter at the top (R11). -/
def shr {w : Nat} (a : BitVec w) (n : Nat) : BitVec w := a >>> n

/-- `rotr(a, n)`: rotate right, `0 < n < w` (R11). -/
def rotr {w : Nat} (a : BitVec w) (n : Nat) : BitVec w := shr a n ||| (a <<< (w - n))

/-- `rotl(a, n)`: rotate left, `0 < n < w` (R11). -/
def rotl {w : Nat} (a : BitVec w) (n : Nat) : BitVec w := rotr a (w - n)

/-- The value of a byte sequence in a byte order (20_memory.md R66, R67). -/
def orderValue : ByteOrder → List Byte → Nat
  | .big, s => be s
  | .little, s => le s

/-- The `k` bytes of a value in a byte order. -/
def orderBytes : ByteOrder → Nat → Nat → List Byte
  | .big, x, k => toBE x k
  | .little, x, k => toLE x k

/-- The 16 words of a block: word `i` is bytes `k·i` to `k·i + k − 1`, with `k = w / 8`
(41_sha2_32.md R150, 42_sha2_64.md R200, 43_ripemd160.md R240). -/
def blockWords (o : ByteOrder) (w : Nat) (blk : List Byte) : List (BitVec w) :=
  (List.range 16).map fun i =>
    BitVec.ofNat w (orderValue o ((blk.drop (w / 8 * i)).take (w / 8)))

/-- `H[i][31:0]` (10_state.md R31). -/
def low32 (x : Word64) : Word32 := x.setWidth 32

/-- `zext_64` of a 32-bit word (R31). -/
def zext64 (x : Word32) : Word64 := x.setWidth 64

end Sys2Proof.Machine
end

