-- ==== Sys2Proof/Machine/Ripemd160.lean ====
section
/-! DEFINITION. The RIPEMD-160 compression core: two independent paths of 80 rounds and their
cross-wired combination (43_ripemd160.md). -/

namespace Sys2Proof.Machine

/-- `f1` (R241). -/
def f1 (x y z : Word32) : Word32 := x ^^^ y ^^^ z

/-- `f2` (R242). -/
def f2 (x y z : Word32) : Word32 := (x &&& y) ||| (~~~x &&& z)

/-- `f3` (R243). -/
def f3 (x y z : Word32) : Word32 := (x ||| ~~~y) ^^^ z

/-- `f4` (R244). -/
def f4 (x y z : Word32) : Word32 := (x &&& z) ||| (y &&& ~~~z)

/-- `f5` (R245). -/
def f5 (x y z : Word32) : Word32 := x ^^^ (y ||| ~~~z)

/-- The five words of a path, `al..el` or `ar..er` (10_state.md R40). -/
structure Path where
  a : Word32
  b : Word32
  c : Word32
  d : Word32
  e : Word32
  deriving DecidableEq, Repr

/-- What the sixteen rounds of one phase of one path share, and their tables (R246 to R251). -/
structure PathPhase where
  f : Word32 → Word32 → Word32 → Word32
  add : Word32
  sel : List Nat
  rot : List Nat

/-- Row `ph` of a path's tables, with the function the phase uses. -/
def pathPhase (f : Word32 → Word32 → Word32 → Word32) (add : List Word32)
    (sel rot : List (List Nat)) (ph : Nat) : PathPhase :=
  { f := f, add := add.getD ph 0, sel := sel.getD ph [], rot := rot.getD ph [] }

/-- The left path's phases: f1, f2, f3, f4, f5 (R246). -/
def leftPhases : List PathPhase :=
  [pathPhase f1 addLeft selLeft rotLeft 0, pathPhase f2 addLeft selLeft rotLeft 1,
   pathPhase f3 addLeft selLeft rotLeft 2, pathPhase f4 addLeft selLeft rotLeft 3,
   pathPhase f5 addLeft selLeft rotLeft 4]

/-- The right path's phases: f5, f4, f3, f2, f1 (R246). -/
def rightPhases : List PathPhase :=
  [pathPhase f5 addRight selRight rotRight 0, pathPhase f4 addRight selRight rotRight 1,
   pathPhase f3 addRight selRight rotRight 2, pathPhase f2 addRight selRight rotRight 3,
   pathPhase f1 addRight selRight rotRight 4]

/-- One round of a path: message word `X[sel]`, rotation `rot` (R252, R253). -/
def pathRound (x : List Word32) (p : PathPhase) (s : Path) (sr : Nat × Nat) : Path :=
  let tmp := rotl (s.a + p.f s.b s.c s.d + x.getD sr.1 0 + p.add) sr.2 + s.e
  { a := s.e, b := tmp, c := s.b, d := rotl s.c 10, e := s.d }

/-- The sixteen rounds of one phase, in order. -/
def pathPhaseRounds (x : List Word32) (s : Path) (p : PathPhase) : Path :=
  (p.sel.zip p.rot).foldl (pathRound x p) s

/-- The 80 rounds of one path. Neither path reads the other's words (R254). -/
def pathRounds (x : List Word32) (phases : List PathPhase) (s : Path) : Path :=
  phases.foldl (pathPhaseRounds x) s

/-- The combination (R255): each new word is one old word, one left word and one right word. -/
def combine (hin l r : Path) : Path :=
  { a := hin.b + l.c + r.d
    b := hin.c + l.d + r.e
    c := hin.d + l.e + r.a
    d := hin.e + l.a + r.b
    e := hin.a + l.b + r.c }

/-- `Compress160` (R256). -/
def compress160 (hin : Path) (blk : List Byte) : Path :=
  let x := blockWords .little 32 blk
  combine hin (pathRounds x leftPhases hin) (pathRounds x rightPhases hin)

end Sys2Proof.Machine
end

