-- ==== Sys2Proof/Machine/Sha2.lean ====
section
/-! DEFINITION. The two SHA-2 compression cores (41_sha2_32.md, 42_sha2_64.md). Their structure is one
and the same; the word width, the amounts and the constants are the fields of `Sha2`. -/

namespace Sys2Proof.Machine

/-- `Ch(x, y, z)` (R151, R201). -/
def ch {w : Nat} (x y z : BitVec w) : BitVec w := (x &&& y) ^^^ (~~~x &&& z)

/-- `Maj(x, y, z)` (R152, R202). -/
def maj {w : Nat} (x y z : BitVec w) : BitVec w := (x &&& y) ^^^ (x &&& z) ^^^ (y &&& z)

/-- A capital sigma: three rotations combined by XOR (R153, R154, R203, R204). -/
def bigSigma {w : Nat} (i j k : Nat) (x : BitVec w) : BitVec w := rotr x i ^^^ rotr x j ^^^ rotr x k

/-- A small sigma: two rotations and a shift combined by XOR (R155, R156, R205, R206). -/
def smallSigma {w : Nat} (i j k : Nat) (x : BitVec w) : BitVec w := rotr x i ^^^ rotr x j ^^^ shr x k

/-- What tells one SHA-2 core from the other. -/
structure Sha2 (w : Nat) where
  bigSigma0 : BitVec w → BitVec w
  bigSigma1 : BitVec w → BitVec w
  smallSigma0 : BitVec w → BitVec w
  smallSigma1 : BitVec w → BitVec w
  k : List (BitVec w)

/-- The 32-bit core: Σ0, Σ1, σ0, σ1 and K32 (R153 to R156, R158). -/
def sha2Core32 : Sha2 32 where
  bigSigma0 := bigSigma 2 13 22
  bigSigma1 := bigSigma 6 11 25
  smallSigma0 := smallSigma 7 18 3
  smallSigma1 := smallSigma 17 19 10
  k := k32

/-- The 64-bit core: Σ0_64, Σ1_64, σ0_64, σ1_64 and K64 (R203 to R206, R208). -/
def sha2Core64 : Sha2 64 where
  bigSigma0 := bigSigma 28 34 39
  bigSigma1 := bigSigma 14 18 41
  smallSigma0 := smallSigma 1 8 7
  smallSigma1 := smallSigma 19 61 6
  k := k64

/-- The next schedule word, from the words so far, newest first: position 0 is `Wt[t-1]`, so 15, 14, 6
and 1 are `Wt[t-16]`, `Wt[t-15]`, `Wt[t-7]` and `Wt[t-2]` (R157, R207). -/
def scheduleWord {w : Nat} (c : Sha2 w) (newest : List (BitVec w)) : BitVec w :=
  newest.getD 15 0 + c.smallSigma0 (newest.getD 14 0) + newest.getD 6 0 +
    c.smallSigma1 (newest.getD 1 0)

/-- Put `n` more words in front. -/
def extendSchedule {w : Nat} (c : Sha2 w) : Nat → List (BitVec w) → List (BitVec w)
  | 0, newest => newest
  | n + 1, newest => extendSchedule c n (scheduleWord c newest :: newest)

/-- The schedule `Wt`, one word for each round constant, oldest first (R157, R207). -/
def schedule {w : Nat} (c : Sha2 w) (m : List (BitVec w)) : List (BitVec w) :=
  (extendSchedule c (c.k.length - 16) m.reverse).reverse

/-- The working set `a..h` (10_state.md R40: not architectural). -/
structure Working (w : Nat) where
  a : BitVec w
  b : BitVec w
  c : BitVec w
  d : BitVec w
  e : BitVec w
  f : BitVec w
  g : BitVec w
  h : BitVec w
  deriving DecidableEq, Repr

/-- One round, with its round constant and its schedule word (R159, R209). -/
def sha2Round {w : Nat} (c : Sha2 w) (s : Working w) (kw : BitVec w × BitVec w) : Working w :=
  let t1 := s.h + c.bigSigma1 s.e + ch s.e s.f s.g + kw.1 + kw.2
  let t2 := c.bigSigma0 s.a + maj s.a s.b s.c
  { a := t1 + t2, b := s.a, c := s.b, d := s.c, e := s.d + t1, f := s.e, g := s.f, h := s.g }

/-- All rounds in order, one for each round constant (R160, R210). -/
def sha2Rounds {w : Nat} (c : Sha2 w) (wt : List (BitVec w)) (s : Working w) : Working w :=
  (c.k.zip wt).foldl (sha2Round c) s

/-- The feed-forward: "modular addition, not replacement" (R160, R210). -/
def Working.add {w : Nat} (x y : Working w) : Working w :=
  { a := x.a + y.a, b := x.b + y.b, c := x.c + y.c, d := x.d + y.d
    e := x.e + y.e, f := x.f + y.f, g := x.g + y.g, h := x.h + y.h }

/-- The compression function of a SHA-2 core. -/
def sha2Compress {w : Nat} (c : Sha2 w) (hin : Working w) (blk : List Byte) : Working w :=
  hin.add (sha2Rounds c (schedule c (blockWords .big w blk)) hin)

/-- `Compress32` (R160). -/
def compress32 (hin : Working 32) (blk : List Byte) : Working 32 := sha2Compress sha2Core32 hin blk

/-- `Compress64` (R210). -/
def compress64 (hin : Working 64) (blk : List Byte) : Working 64 := sha2Compress sha2Core64 hin blk

end Sys2Proof.Machine
end

