-- ==== Sys2Proof/Machine/Facade.lean ====
section
/-! DEFINITION. The digest façade's per-algorithm work: the compression dispatch, serialization and
truncation (44_digest_facade.md R300 to R302). -/

namespace Sys2Proof.Machine

/-- `H[0..7][31:0]` as the working set of the 32-bit core. -/
def loadWorking32 (h : Vector Word64 8) : Working 32 :=
  { a := low32 h[0], b := low32 h[1], c := low32 h[2], d := low32 h[3]
    e := low32 h[4], f := low32 h[5], g := low32 h[6], h := low32 h[7] }

/-- The eight result words, zero-extended (41_sha2_32.md R161). -/
def storeWorking32 (x : Working 32) : Vector Word64 8 :=
  #v[zext64 x.a, zext64 x.b, zext64 x.c, zext64 x.d, zext64 x.e, zext64 x.f, zext64 x.g, zext64 x.h]

/-- `H[0..7]` as the working set of the 64-bit core. -/
def loadWorking64 (h : Vector Word64 8) : Working 64 :=
  { a := h[0], b := h[1], c := h[2], d := h[3], e := h[4], f := h[5], g := h[6], h := h[7] }

/-- The eight result words (42_sha2_64.md R210). -/
def storeWorking64 (x : Working 64) : Vector Word64 8 :=
  #v[x.a, x.b, x.c, x.d, x.e, x.f, x.g, x.h]

/-- `H[0..4][31:0]` as the state of RIPEMD-160. -/
def loadPath (h : Vector Word64 8) : Path :=
  { a := low32 h[0], b := low32 h[1], c := low32 h[2], d := low32 h[3], e := low32 h[4] }

/-- The five result words, zero-extended; `H[5..7]` are not written (43_ripemd160.md R258). -/
def storePath (x : Path) (h : Vector Word64 8) : Vector Word64 8 :=
  #v[zext64 x.a, zext64 x.b, zext64 x.c, zext64 x.d, zext64 x.e, h[5], h[6], h[7]]

/-- `Compress(alg, H, blk)` (R300). -/
def compress : Alg → Vector Word64 8 → List Byte → Vector Word64 8
  | .sha224, h, blk => storeWorking32 (compress32 (loadWorking32 h) blk)
  | .sha256, h, blk => storeWorking32 (compress32 (loadWorking32 h) blk)
  | .sha384, h, blk => storeWorking64 (compress64 (loadWorking64 h) blk)
  | .sha512, h, blk => storeWorking64 (compress64 (loadWorking64 h) blk)
  | .sha512t224, h, blk => storeWorking64 (compress64 (loadWorking64 h) blk)
  | .sha512t256, h, blk => storeWorking64 (compress64 (loadWorking64 h) blk)
  | .ripemd160, h, blk => storePath (compress160 (loadPath h) blk) h

/-- `Serialize(alg, H)` (R302): the words in use, `H[0]` first, each in the algorithm's byte order. -/
def serialize (a : Alg) (h : Vector Word64 8) : List Byte :=
  (h.toList.take (stateWords a)).flatMap fun x => orderBytes (byteOrder a) x.toNat (wordBytes a)

/-- `Digest(alg, H)` (R302): the first OUT(alg) bytes. -/
def digest (a : Alg) (h : Vector Word64 8) : List Byte := (serialize a h).take (outBytes a)

end Sys2Proof.Machine
end

