-- ==== Sys2Proof/Machine/Buffer.lean ====
section
/-! DEFINITION. The block buffer and padding engine (40_block_buffer.md). Its operations are internal
to UPDATE and FINAL and raise no fault (R134). -/

namespace Sys2Proof.Machine

/-- `ProcessBlock(blk)` (R120): compress into `H`, touching no other register. -/
def State.processBlock (a : Alg) (blk : List Byte) (s : State) : State :=
  { s with h := compress a s.h blk }

/-- Write bytes at consecutive positions of the buffer. A position of 128 or more does not exist and
is not written; no run reaches one (R134, log entry 12). -/
def writeBuf (buf : Vector Byte Config.bufBytes) (pos : Nat) : List Byte → Vector Byte Config.bufBytes
  | [] => buf
  | b :: bs => writeBuf (buf.setIfInBounds pos b) (pos + 1) bs

/-- `FullBuffer()`: `BUF[0 .. B(ALG))` as one block (R131). -/
def State.fullBuffer (a : Alg) (s : State) : List Byte := s.buf.toList.take (blockBytes a)

/-- `BUF[0 .. PLEN)`, the message bytes not yet compressed (10_state.md R34). -/
def State.pending (s : State) : List Byte := s.buf.toList.take s.plen.toNat

/-- One turn of the loop of `BufInput` (R121): append one byte; a full buffer is handed over at once
and emptied. -/
def State.pushByte (a : Alg) (s : State) (b : Byte) : State :=
  let s1 := { s with buf := writeBuf s.buf s.plen.toNat [b], plen := s.plen + 1 }
  if s1.plen.toNat = blockBytes a then
    { s1.processBlock a (s1.fullBuffer a) with plen := 0 }
  else s1

/-- `BufInput(data)` (R121). -/
def State.bufInput (a : Alg) (data : List Byte) (s : State) : State := data.foldl (State.pushByte a) s

/-- `for j in PLEN .. hi - 1: BUF[j] <- 0x00` (R126). -/
def State.zeroFill (hi : Nat) (s : State) : State :=
  { s with buf := writeBuf s.buf s.plen.toNat (zeros (hi - s.plen.toNat)) }

/-- The first half of `StandardPadding`: the 0x80 byte (R126). -/
def State.padMark (s : State) : State :=
  { s with buf := writeBuf s.buf s.plen.toNat [0x80], plen := s.plen + 1 }

/-- The flush of `StandardPadding` (R126): when fewer than `L(ALG)` bytes remain, fill with zeros,
hand the block over, start a fresh one. -/
def State.padFlush (a : Alg) (s : State) : State :=
  if blockBytes a - lengthBytes a < s.plen.toNat then
    let s1 := s.zeroFill (blockBytes a)
    { s1.processBlock a (s1.fullBuffer a) with plen := 0 }
  else s

/-- `StandardPadding(L(ALG))` (R126). -/
def State.standardPadding (a : Alg) (s : State) : State :=
  { (s.padMark.padFlush a).zeroFill (blockBytes a - lengthBytes a) with
    plen := BitVec.ofNat 8 (blockBytes a - lengthBytes a) }

/-- The length field (R129): `bits = (8 · LEN) mod 2^64` in `L(ALG)` bytes of the algorithm's byte
order; the upper half of a 16-byte field is zero. -/
def lengthField (a : Alg) (len : BitVec 64) : List Byte :=
  orderBytes (byteOrder a) (8 * len.toNat % 2 ^ 64) (lengthBytes a)

/-- Write the length field through `Next(L(ALG))` and fill the buffer up to `B(ALG)` (R130, R132). -/
def State.writeLength (a : Alg) (s : State) : State :=
  { s with
    buf := writeBuf s.buf (blockBytes a - lengthBytes a) (lengthField a s.len)
    plen := BitVec.ofNat 8 (blockBytes a) }

/-- `Finish()` (R132). -/
def State.finish (a : Alg) (s : State) : State :=
  let s1 := (s.standardPadding a).writeLength a
  { s1.processBlock a (s1.fullBuffer a) with plen := 0 }

end Sys2Proof.Machine
end

