-- ==== Sys2Proof/Machine/Commands.lean ====
section
/-! DEFINITION. The meanings of the six commands (44_digest_facade.md R310 to R330). The command's bytes
are consumed before its meaning runs (R281). In every meaning the checks come before the first write
(60_exceptions.md R344), and in the Faulted phase only STATUS has an effect (R346). -/

namespace Sys2Proof.Machine

/-- INIT (R310): a fresh instance of `a`. It is allowed in every phase but Faulted. -/
def execInit (a : Alg) (s : State) : Host.Outcome State Fault Refusal :=
  match s.phase with
  | .faulted => .next s
  | .idle => .next { s with alg := some a, h := initialValue a, plen := 0, len := 0, phase := .fresh }
  | .fresh => .next { s with alg := some a, h := initialValue a, plen := 0, len := 0, phase := .fresh }
  | .updating => .next { s with alg := some a, h := initialValue a, plen := 0, len := 0, phase := .fresh }
  | .finalized => .next { s with alg := some a, h := initialValue a, plen := 0, len := 0, phase := .fresh }

/-- UPDATE (R314). The sum of the overflow check is exact (60_exceptions.md R345). -/
def execUpdate (data : List Byte) (s : State) : Host.Outcome State Fault Refusal :=
  s.withInstance .updateAfterFinal fun a =>
    if lengthLimit ≤ s.len.toNat + data.length then s.raiseFault .lengthOverflow
    else
      { State.bufInput a data { s with len := s.len + BitVec.ofNat 64 data.length } with
        phase := .updating }

/-- FINAL (R318). -/
def execFinal (s : State) : Host.Outcome State Fault Refusal :=
  s.withInstance .doubleFinal fun a =>
    { (s.finish a).emit (digest a (s.finish a).h) with phase := .finalized }

/-- COMPRESS (R322). -/
def execCompress (data : List Byte) (s : State) : Host.Outcome State Fault Refusal :=
  s.withInstance .useAfterFinal fun a =>
    if data.length ≠ blockBytes a then s.raiseFault .blockLength
    else { s.processBlock a data with phase := .updating }

/-- READ_STATE (R326). -/
def execReadState (s : State) : Host.Outcome State Fault Refusal :=
  s.withInstance .useAfterFinal fun a => s.emit (serialize a s.h)

/-- STATUS (R330): answered in every phase. -/
def execStatus (s : State) : Host.Outcome State Fault Refusal :=
  .next (s.emit (toBE s.statusWord.toNat 4))

end Sys2Proof.Machine
end

