-- ==== Sys2Proof/Machine/Dispatch.lean ====
section
/-! DEFINITION. One arm per command of spec/opcode_table.json. -/

namespace Sys2Proof.Machine

/-- The effect of a command whose bytes are consumed (44_digest_facade.md R281, the `case`). -/
def exec (i : Instr) (s : State) : Host.Outcome State Fault Refusal :=
  match i with
  | .init a => Sys2Proof.Machine.execInit a s
  | .update data => Sys2Proof.Machine.execUpdate data s
  | .final => Sys2Proof.Machine.execFinal s
  | .compress data => Sys2Proof.Machine.execCompress data s
  | .readState => Sys2Proof.Machine.execReadState s
  | .status => Sys2Proof.Machine.execStatus s

end Sys2Proof.Machine
end

