-- ==== Sys2Proof/Machine/Step.lean ====
section
/-! DEFINITION. One step of the core: one whole command, or a wait (44_digest_facade.md R281,
70_reset_and_hazards.md R392). -/

namespace Sys2Proof.Machine

/-- Receive the next command, then run it or raise the fault its header calls for. While the command
is incomplete the core waits with all state unchanged (log entry 5). The Faulted phase is looked at
where the effect is: `raiseFault` and every meaning but STATUS do nothing there (log entry 16). -/
def step (s : State) : Host.Outcome State Fault Refusal :=
  match s.receive with
  | none => .next s
  | some r =>
    match decodeCommand r.hdr r.data with
    | .error c => .next (r.after.raiseFault c)
    | .ok i => exec i r.after

/-- `s` with the command of an opcode-table word as the next one in its command stream. -/
def State.withFetchWord (s : State) (nbits w : Nat) : State :=
  { s with input := tableWordBytes nbits w ++ s.input }

end Sys2Proof.Machine
end

