-- ==== Sys2Proof/Machine/Listing.lean ====
section
/-! DEFINITION. The listing syntax and the pseudo-commands (30_encoding.md R98, R99), as terms and their
bytes; the concrete spelling of a listing is not modelled (log entry 15). -/

namespace Sys2Proof.Machine

/-- The data forms of R98. -/
inductive Data where
  /-- `"<ASCII text>"`: its bytes in order, no terminator. -/
  | text (s : String)
  /-- `x"<hex pairs>"`. -/
  | hex (bs : List Byte)
  /-- `zeros(<k>)`. -/
  | zeros (k : Nat)
  /-- `<data> ‖ <data>`. -/
  | cat (d e : Data)
  deriving DecidableEq, Repr

/-- The bytes a data form stands for. -/
def Data.bytes : Data → List Byte
  | .text s => s.toList.map fun c => BitVec.ofNat 8 c.toNat
  | .hex bs => bs
  | .zeros k => Sys2Proof.zeros k
  | .cat d e => d.bytes ++ e.bytes

/-- One line of a listing (R98). -/
inductive Line where
  /-- `INIT #<0..15>`; a name stands for its code. -/
  | init (code : BitVec 4)
  | update (d : Data)
  | compress (d : Data)
  | final
  | readState
  | status
  /-- `.hdr 0x<8 hex>`: a raw header word, without a payload. -/
  | hdr (w : Word32)
  deriving DecidableEq, Repr

/-- The stream bytes of a line. -/
def Line.bytes : Line → List Byte
  | .init code => headerBytes (header 0x01 (code.setWidth 24))
  | .update d => headerBytes (header 0x02 (BitVec.ofNat 24 d.bytes.length)) ++ d.bytes
  | .compress d => headerBytes (header 0x04 (BitVec.ofNat 24 d.bytes.length)) ++ d.bytes
  | .final => headerBytes (header 0x03 0)
  | .readState => headerBytes (header 0x05 0)
  | .status => headerBytes (header 0x06 0)
  | .hdr w => headerBytes w

/-- `HASH <alg>, <data>` (R99). -/
def hashCommands (a : Alg) (data : List Byte) : List Instr := [.init a, .update data, .final]

/-- `HASHBLOCK <alg>, <data>` (R99). -/
def hashBlockCommands (a : Alg) (data : List Byte) : List Instr := [.init a, .compress data, .readState]

/-- The largest payload of one UPDATE, MAXCHUNK (00_scope.md R7). -/
def maxChunk : Nat := 2 ^ 24 - 1

/-- Cut a payload into pieces of `m` bytes, the last one of 1 to `m` (of 0 only for an empty payload);
`fuel` bounds their number. DESIGN CHOICE: R99 does not define its k, so whether an empty last piece
follows an exact multiple of `m` bytes is open; here none does (log entry 19). -/
def pieces (m : Nat) : Nat → List Byte → List (List Byte)
  | 0, _ => []
  | fuel + 1, data =>
    if data.length ≤ m then [data] else data.take m :: pieces m fuel (data.drop m)

/-- `UPDATE <data>` of any length (R99): one UPDATE for each piece of at most `2^24 − 1` bytes (log
entry 19). -/
def longUpdateCommands (data : List Byte) : List Instr :=
  (pieces maxChunk (data.length + 1) data).map .update

end Sys2Proof.Machine
end

