-- ==== Sys2Proof/Machine/Port.lean ====
section
/-! DEFINITION. What the host can do to the core, between steps (70_reset_and_hazards.md R380, R395),
and a run under any interleaving of host actions and steps. -/

namespace Sys2Proof.Machine

/-- The host writes bytes to the command stream: they queue behind those already there (20_memory.md
R62). No other state changes. -/
def State.hostWrite (bs : List Byte) (s : State) : State := { s with input := s.input ++ bs }

/-- The host asserts reset (R380): every piece of state takes its reset value, and the command bytes
received so far are discarded (log entry 11). -/
def State.hostReset (_ : State) : State := State.reset

/-- One thing that can happen to the core. -/
inductive Event where
  /-- The host writes bytes. -/
  | write (bs : List Byte)
  /-- The host asserts reset. -/
  | reset
  /-- The core takes one step. -/
  | step
  deriving DecidableEq, Repr

/-- The effect of one event. -/
def State.event (s : State) : Event → Host.Outcome State Fault Refusal
  | .write bs => .next (s.hostWrite bs)
  | .reset => .next s.hostReset
  | .step => Sys2Proof.Machine.step s

/-- The effect of events in order, up to the first stop. -/
def State.events (s : State) : List Event → Host.Outcome State Fault Refusal
  | [] => .next s
  | e :: es =>
    match s.event e with
    | .next t => t.events es
    | .fault r => .fault r
    | .refused r => .refused r

end Sys2Proof.Machine
end

