-- ==== Sys2Proof/Safety.lean ====
section
/-! DEFINITION. The terms in which claims speak: the invariant of 10_state.md R43, a safe run, a run
that has ended (70_reset_and_hazards.md R398), what two states share when only unobservable bytes
differ, and the one-shot view of a message (40_block_buffer.md R133). -/

namespace Sys2Proof.Machine

/-! ### The invariant -/

/-- The unused bits of 10_state.md R31 are 0: the upper halves for a 32-bit algorithm, and the words
from `SW(alg)` on. -/
def UnusedBitsZero (a : Alg) (h : Vector Word64 8) : Prop :=
  (wordBytes a = 4 → ∀ i : Fin 8, h[i].toNat < 2 ^ 32) ∧
    ∀ i : Fin 8, stateWords a ≤ i.val → h[i] = 0

/-- Items 2 to 6 of R43 (but for FCODE), for the phase `p`. -/
structure PhaseItems (p : Phase) (s : State) : Prop where
  /-- Item 2. -/
  idle : p = .idle → s.alg = none ∧ s.plen = 0 ∧ s.len = 0
  /-- Item 3. -/
  hasAlg : p = .fresh ∨ p = .updating ∨ p = .finalized → s.alg ≠ none
  /-- Item 4. -/
  fresh : p = .fresh → s.plen = 0 ∧ s.len = 0 ∧ ∀ a, s.alg = some a → s.h = initialValue a
  /-- Item 5. -/
  finalized : p = .finalized → s.plen = 0
  /-- Item 6, first part. -/
  plenLt : ∀ a, s.alg = some a → s.plen.toNat < blockBytes a
  /-- Item 6, second part. -/
  plenMod : p = .fresh ∨ p = .updating →
    ∀ a, s.alg = some a → s.plen.toNat = s.len.toNat % blockBytes a

/-- The invariant of R43. Item 1 holds by the type of `phase`. In the Faulted phase, items 2 to 6 hold
for the phase in which the fault was raised ("as they held just before"). -/
structure State.Inv (s : State) : Prop where
  /-- Items 2 to 6. -/
  items : ∃ p, p ≠ .faulted ∧ (s.phase ≠ .faulted → s.phase = p) ∧ PhaseItems p s
  /-- Item 7, and the FCODE of items 2 and 3. -/
  fcode : s.phase = .faulted ↔ s.fcode ≠ none
  /-- Item 8. -/
  lenLe : s.len.toNat ≤ 2 ^ 61 - 1
  /-- Item 9. -/
  unused : ∀ a, s.alg = some a → UnusedBitsZero a s.h

/-- An instance of `a` exists and is not finalized: the states in which UPDATE, FINAL, COMPRESS and
READ_STATE run (44_digest_facade.md R314 to R326). -/
def State.Live (a : Alg) (s : State) : Prop :=
  (s.phase = .fresh ∨ s.phase = .updating) ∧ s.alg = some a

/-! ### Runs -/

/-- A safe run: the core never stops, whatever the host does and however long it runs. -/
def State.Safe (s : State) : Prop := ∀ es, ∃ t, s.events es = .next t

/-- The run has ended: every byte of the stream is consumed, at a command boundary (R398). -/
def State.Ended (s : State) : Prop := s.input = []

/-- Commands executed in order, their bytes taken as consumed. -/
def execAll : List Instr → State → Host.Outcome State Fault Refusal
  | [], s => .next s
  | i :: is, s =>
    match exec i s with
    | .next t => execAll is t
    | .fault r => .fault r
    | .refused r => .refused r

/-- The state once the command at the front of the stream is consumed: nothing but `cp` and the stream
has moved (60_exceptions.md R343). -/
def State.pastCommand (s : State) (f : Framed) : State :=
  { s with input := f.rest, cp := s.cp + 4 + payloadLength f.hdr }

/-! ### What no command observes -/

/-- `t` is `s` but for the bytes of BUF at and above PLEN (10_state.md R34: "unobservable"). -/
def State.SameButBufTail (s t : State) : Prop := t = { s with buf := t.buf } ∧ t.pending = s.pending

/-- `t` is `s` but for what no command can observe (20_memory.md R78): BUF at and above PLEN, and, while
no algorithm is selected, all of H and BUF. -/
def State.SameObservable (s t : State) : Prop :=
  t = { s with h := t.h, buf := t.buf } ∧
    ∀ a, s.alg = some a → t.h = s.h ∧ t.pending = s.pending

/-! ### The one-shot view of a message -/

/-- The first `k` consecutive blocks of `b` bytes. -/
def cutBlocks (b : Nat) : Nat → List Byte → List (List Byte)
  | 0, _ => []
  | k + 1, bs => bs.take b :: cutBlocks b k (bs.drop b)

/-- The blocks of `B(alg)` bytes in a byte sequence; a rest shorter than a block is left out. -/
def blocksOf (a : Alg) (bs : List Byte) : List (List Byte) :=
  cutBlocks (blockBytes a) (bs.length / blockBytes a) bs

/-- A state folded through the compression function over the blocks of a byte sequence (R335). -/
def hashBlocks (a : Alg) (h : Vector Word64 8) (bs : List Byte) : Vector Word64 8 :=
  (blocksOf a bs).foldl (compress a) h

/-- `z` is the least number of zero bytes that puts the end of the length field on a block boundary,
`m` bytes and the 0x80 byte before it (40_block_buffer.md R133). -/
def LeastPadding (a : Alg) (m z : Nat) : Prop :=
  (m + 1 + z + lengthBytes a) % blockBytes a = 0 ∧
    ∀ y, y < z → (m + 1 + y + lengthBytes a) % blockBytes a ≠ 0

end Sys2Proof.Machine
end

