-- ==== Sys2Proof/Certificates/Slice0/Obligations.lean ====
section
/-! DEFINITION. The statements about the octavo hash core. Each docstring names the rule of spec/ the
statement formalises. -/

open Sys2Proof Sys2Proof.Machine

/-! ### Encoding -/

/-- 30_encoding.md R100: each listing line has the bytes of its row, and the decoder reads from them what
the row says; the last three are the row's faults. -/
def Obligations.EncodingExamplesDecode : Prop :=
  ((Line.init 2).bytes = [0x01, 0x00, 0x00, 0x02] ∧
      decode [0x01, 0x00, 0x00, 0x02] = .command (.init .sha256) []) ∧
    ((Line.init 7).bytes = [0x01, 0x00, 0x00, 0x07] ∧
      decode [0x01, 0x00, 0x00, 0x07] = .command (.init .ripemd160) []) ∧
    ((Line.update (.text "abc")).bytes = [0x02, 0x00, 0x00, 0x03, 0x61, 0x62, 0x63] ∧
      decode [0x02, 0x00, 0x00, 0x03, 0x61, 0x62, 0x63] = .command (.update [0x61, 0x62, 0x63]) []) ∧
    ((Line.update (.text "")).bytes = [0x02, 0x00, 0x00, 0x00] ∧
      decode [0x02, 0x00, 0x00, 0x00] = .command (.update []) []) ∧
    (Line.final.bytes = [0x03, 0x00, 0x00, 0x00] ∧
      decode [0x03, 0x00, 0x00, 0x00] = .command .final []) ∧
    ((Line.compress (.zeros 64)).bytes = [0x04, 0x00, 0x00, 0x40] ++ List.replicate 64 0 ∧
      decode ([0x04, 0x00, 0x00, 0x40] ++ List.replicate 64 0)
        = .command (.compress (List.replicate 64 0)) []) ∧
    ((Line.compress (.zeros 128)).bytes = [0x04, 0x00, 0x00, 0x80] ++ List.replicate 128 0 ∧
      decode ([0x04, 0x00, 0x00, 0x80] ++ List.replicate 128 0)
        = .command (.compress (List.replicate 128 0)) []) ∧
    (Line.readState.bytes = [0x05, 0x00, 0x00, 0x00] ∧
      decode [0x05, 0x00, 0x00, 0x00] = .command .readState []) ∧
    (Line.status.bytes = [0x06, 0x00, 0x00, 0x00] ∧
      decode [0x06, 0x00, 0x00, 0x00] = .command .status []) ∧
    ((Line.hdr 0x01000010).bytes = [0x01, 0x00, 0x00, 0x10] ∧
      decode [0x01, 0x00, 0x00, 0x10] = .illegal .reservedOperand []) ∧
    ((Line.init 0).bytes = [0x01, 0x00, 0x00, 0x00] ∧
      decode [0x01, 0x00, 0x00, 0x00] = .illegal .badAlg []) ∧
    ((Line.hdr 0x07000000).bytes = [0x07, 0x00, 0x00, 0x00] ∧
      decode [0x07, 0x00, 0x00, 0x00] = .illegal .illegalOpcode [])

/-- Every well-formed command, at every operand its encoding admits and whatever follows it in the
stream, is decoded from its own bytes (30_encoding.md R90 to R96). -/
def Obligations.DecodeEncodeRoundTrip : Prop :=
  ∀ (i : Instr) (rest : List Byte), i.WellFormed → decode (encode i ++ rest) = .command i rest

/-- Each command has one spelling: the bytes the decoder took are the command's encoding, and the command
is well formed (30_encoding.md R90 to R96). -/
def Obligations.DecodedBytesAreTheEncoding : Prop :=
  ∀ (bs rest : List Byte) (i : Instr),
    decode bs = .command i rest → i.WellFormed ∧ bs = encode i ++ rest

/-- 30_encoding.md R93, R94: a header that matches a row's match and mask is that row's command, whatever
payload came behind it (INIT with the algorithm its code selects); the table's illegal encodings have
the fault code of their row. -/
def Obligations.HeaderRowsSelectCommands : Prop :=
  ∀ (hdr : Word32) (data : List Byte),
    (hdr &&& 0xFFFFFFF0#32 = 0x01000000#32 →
      (∀ a : Alg, hdr.extractLsb 3 0 = codeOfAlg a → decodeCommand hdr data = .ok (.init a)) ∧
      ((hdr.extractLsb 3 0).toNat = 0 ∨ 8 ≤ (hdr.extractLsb 3 0).toNat →
        decodeCommand hdr data = .error .badAlg)) ∧
    (hdr &&& 0xFF000000#32 = 0x02000000#32 → decodeCommand hdr data = .ok (.update data)) ∧
    (hdr &&& 0xFFFFFFFF#32 = 0x03000000#32 → decodeCommand hdr data = .ok .final) ∧
    (hdr &&& 0xFF000000#32 = 0x04000000#32 → decodeCommand hdr data = .ok (.compress data)) ∧
    (hdr &&& 0xFFFFFFFF#32 = 0x05000000#32 → decodeCommand hdr data = .ok .readState) ∧
    (hdr &&& 0xFFFFFFFF#32 = 0x06000000#32 → decodeCommand hdr data = .ok .status) ∧
    ((hdr.extractLsb 31 24).toNat = 0 ∨ 7 ≤ (hdr.extractLsb 31 24).toNat →
      decodeCommand hdr data = .error .illegalOpcode) ∧
    ((hdr.extractLsb 31 24).toNat = 1 → (hdr.extractLsb 23 4).toNat ≠ 0 →
      decodeCommand hdr data = .error .reservedOperand) ∧
    ((hdr.extractLsb 31 24).toNat = 3 ∨ (hdr.extractLsb 31 24).toNat = 5 ∨
        (hdr.extractLsb 31 24).toNat = 6 → (hdr.extractLsb 23 0).toNat ≠ 0 →
      decodeCommand hdr data = .error .reservedOperand)

/-! ### The step -/

/-- When the bytes at the front of the stream decode to a command, the step consumes them, `cp` advancing
by their number, and is `exec` of that command (44_digest_facade.md R281). -/
def Obligations.StepRunsDecodedCommand : Prop :=
  ∀ (s : State) (i : Instr) (rest : List Byte), decode s.input = .command i rest →
    step s = exec i { s with input := rest, cp := s.cp + (encode i).length }

/-- When the bytes at the front of the stream spell an illegal command, the step consumes its four header
bytes (an illegal header has no payload, R96) and records the fault of the encoding; in the Faulted
phase nothing else happens (44_digest_facade.md R281, 60_exceptions.md R343, R346). -/
def Obligations.StepRaisesDecodeFault : Prop :=
  ∀ (s : State) (c : FaultCode) (rest : List Byte), decode s.input = .illegal c rest →
    step s = .next (if s.phase = .faulted
      then { s with input := s.input.drop 4, cp := s.cp + 4 }
      else { s with input := s.input.drop 4, cp := s.cp + 4, fcode := some c, phase := .faulted })

/-- 30_encoding.md R96: from the header bytes alone a command has length `4 + P`; once that many bytes
have arrived, one step consumes exactly them, whether the command succeeds or faults and in every phase.
The invariant only rules out ALG = 0 with a live instance. -/
def Obligations.CommandLengthFromHeader : Prop :=
  ∀ (s : State) (op x y z : Byte) (more : List Byte), s.Inv → s.input = op :: x :: y :: z :: more →
    ∀ P, P = (if op = 0x02 ∨ op = 0x04 then x.toNat * 65536 + y.toNat * 256 + z.toNat else 0) →
      P ≤ more.length →
      ∃ t, step s = .next t ∧ t.cp = s.cp + 4 + P ∧ t.input = more.drop P

/-- 70_reset_and_hazards.md R392: while fewer bytes have arrived than the command needs, the core waits
with all state unchanged, for as many steps as one likes. -/
def Obligations.CoreWaitsForBytes : Prop :=
  ∀ (s : State) (k : Nat),
    (s.input.length < 4 ∨
      ∃ op x y z more, s.input = op :: x :: y :: z :: more ∧ (op = 0x02 ∨ op = 0x04) ∧
        more.length < x.toNat * 65536 + y.toNat * 256 + z.toNat) →
    Sys2Proof.core.run k s = .next s

/-- Later bytes have no part in a command (20_memory.md R62, R77): once a whole command has arrived, its
step does the same with more bytes behind it, which are still there afterwards. -/
def Obligations.LaterBytesDoNotMatter : Prop :=
  ∀ (s t : State) (bs : List Byte), decode s.input ≠ .incomplete → step s = .next t →
    step (s.hostWrite bs) = .next (t.hostWrite bs)

/-- 70_reset_and_hazards.md R398: a stream of whole commands, legal or not, is consumed whole: the run
ends, with as many steps as there are commands, at `cp` past the last byte (in every phase, R96). -/
def Obligations.WholeStreamIsConsumed : Prop :=
  ∀ (s : State) (cmds : List (Word32 × List Byte)), s.Inv →
    (∀ c ∈ cmds, c.2.length = payloadLength c.1) →
    s.input = cmds.flatMap (fun c => headerBytes c.1 ++ c.2) →
    ∃ t, Sys2Proof.core.run cmds.length s = .next t ∧ t.Ended ∧ t.cp = s.cp + s.input.length

/-! ### Faults -/

/-- 60_exceptions.md R343, R344: a step that raises a fault writes FCODE and PHASE and moves past the
command's bytes; every other register, BUF and RESP keep their values. -/
def Obligations.FaultsArePrecise : Prop :=
  ∀ s t : State, s.phase ≠ .faulted → step s = .next t → t.phase = .faulted →
    ∃ f c, frame s.input = some f ∧
      t = { s with fcode := some c, phase := .faulted, input := f.rest
                   cp := s.cp + 4 + payloadLength f.hdr }

/-- 60_exceptions.md R342: a command that meets several fault conditions reports the first of them in the
order of the rule, and one that meets none raises no fault. -/
def Obligations.FirstFaultConditionIsReported : Prop :=
  ∀ (s : State) (f : Framed), s.Inv → s.phase ≠ .faulted → frame s.input = some f →
    ∀ op n : Nat, op = (f.hdr.extractLsb 31 24).toNat → n = (f.hdr.extractLsb 23 0).toNat →
      ∃ t, step s = .next t ∧
        t.fcode =
          (if op = 0 ∨ 7 ≤ op then some .illegalOpcode
          else if (op = 1 ∧ 16 ≤ n) ∨ ((op = 3 ∨ op = 5 ∨ op = 6) ∧ n ≠ 0) then some .reservedOperand
          else if op = 1 ∧ (n = 0 ∨ 8 ≤ n) then some .badAlg
          else if s.phase = .idle ∧ (op = 2 ∨ op = 3 ∨ op = 4 ∨ op = 5) then some .noInstance
          else if s.phase = .finalized ∧ op = 2 then some .updateAfterFinal
          else if s.phase = .finalized ∧ op = 3 then some .doubleFinal
          else if s.phase = .finalized ∧ (op = 4 ∨ op = 5) then some .useAfterFinal
          else if op = 4 ∧ some n ≠ s.alg.map blockBytes then some .blockLength
          else if op = 2 ∧ 2 ^ 61 ≤ s.len.toNat + n then some .lengthOverflow
          else none) ∧
        (t.phase = .faulted ↔ t.fcode ≠ none)

/-- 60_exceptions.md R346: in the Faulted phase a command is consumed whole; a header of exactly
0x06000000 emits the status word, every other command has no effect and no response. -/
def Obligations.FaultedPhaseAnswersStatusOnly : Prop :=
  ∀ (s : State) (f : Framed), s.phase = .faulted → frame s.input = some f →
    step s = .next
      { s with
        input := f.rest
        cp := s.cp + 4 + payloadLength f.hdr
        resp := if f.hdr = 0x06000000#32 then s.resp ++ toBE s.statusWord.toNat 4 else s.resp }

/-- 60_exceptions.md R347: whatever the host writes and however many steps the core takes, without a
reset the phase stays Faulted and FCODE keeps the first fault's code; reset leaves Faulted and clears
FCODE. -/
def Obligations.FaultedIsLeftOnlyByReset : Prop :=
  (∀ (s t : State) (es : List Event), s.phase = .faulted → Event.reset ∉ es → s.events es = .next t →
    t.phase = .faulted ∧ t.fcode = s.fcode) ∧
  ∀ s : State, ∃ t, s.event .reset = .next t ∧ t.phase = .idle ∧ t.fcode = none

/-- 10_state.md R38: FCODE changes only when a step raises a fault, from a phase other than Faulted. -/
def Obligations.FaultCodeIsWrittenOnlyByFaults : Prop :=
  ∀ s t : State, step s = .next t → t.fcode ≠ s.fcode →
    s.phase ≠ .faulted ∧ t.phase = .faulted ∧ t.fcode ≠ none

/-! ### Reset -/

/-- 10_state.md R44, 70_reset_and_hazards.md R380: what reset leaves, in every piece of state for which
the rule gives a value, from any state; the status word is 0. (H and BUF: "unspecified".) That no byte of
the stream is left is the model's choice (log entry 11): R380 speaks of a partial command only. -/
def Obligations.ResetValues : Prop :=
  ∀ s : State, ∃ t, s.event .reset = .next t ∧ t.phase = .idle ∧ t.alg = none ∧ t.plen = 0 ∧
    t.fcode = none ∧ t.len = 0 ∧ t.cp = 0 ∧ t.resp = [] ∧ t.input = [] ∧ t.statusWord = 0

/-- 70_reset_and_hazards.md R381: in Idle only INIT and STATUS succeed; every other command raises
NO_INSTANCE. -/
def Obligations.IdleAllowsOnlyInitAndStatus : Prop :=
  ∀ (s : State) (i : Instr), s.phase = .idle →
    ∃ t, exec i s = .next t ∧
      ((∃ a, i = .init a) ∨ i = .status → t.phase ≠ .faulted) ∧
      (¬((∃ a, i = .init a) ∨ i = .status) →
        t = { s with phase := .faulted, fcode := some .noInstance })

/-- 60_exceptions.md R341, R346: in Finalized, UPDATE, FINAL, COMPRESS and READ_STATE each raise the code
of the rule's table and do nothing else; in Faulted every command but STATUS does nothing. -/
def Obligations.CommandsOutsideTheirPhases : Prop :=
  ∀ (s : State) (d : List Byte),
    (s.phase = .finalized →
      exec (.update d) s = .next { s with phase := .faulted, fcode := some .updateAfterFinal } ∧
      exec .final s = .next { s with phase := .faulted, fcode := some .doubleFinal } ∧
      exec (.compress d) s = .next { s with phase := .faulted, fcode := some .useAfterFinal } ∧
      exec .readState s = .next { s with phase := .faulted, fcode := some .useAfterFinal }) ∧
    (s.phase = .faulted → ∀ i, i ≠ .status → exec i s = .next s)

/-! ### The commands -/

/-- 44_digest_facade.md R310: INIT loads ALG and H, clears PLEN and LEN, makes the phase Fresh, in every
phase but Faulted, and leaves everything else; twice is the same as once. -/
def Obligations.InitLoadsFreshInstance : Prop :=
  ∀ (s : State) (a : Alg), s.phase ≠ .faulted →
    exec (.init a) s = .next
      { s with alg := some a, h := initialValue a, plen := 0, len := 0, phase := .fresh } ∧
    execAll [.init a, .init a] s = exec (.init a) s

/-- 44_digest_facade.md R303, R304 and 43_ripemd160.md R257: what INIT puts into H. -/
def Obligations.InitialValuesOfEachAlgorithm : Prop :=
  ∀ s : State, s.phase ≠ .faulted →
    (∃ t, exec (.init .sha224) s = .next t ∧ t.h = #v[0xc1059ed8, 0x367cd507, 0x3070dd17, 0xf70e5939,
      0xffc00b31, 0x68581511, 0x64f98fa7, 0xbefa4fa4]) ∧
    (∃ t, exec (.init .sha256) s = .next t ∧ t.h = #v[0x6a09e667, 0xbb67ae85, 0x3c6ef372, 0xa54ff53a,
      0x510e527f, 0x9b05688c, 0x1f83d9ab, 0x5be0cd19]) ∧
    (∃ t, exec (.init .sha384) s = .next t ∧ t.h = #v[0xcbbb9d5dc1059ed8, 0x629a292a367cd507,
      0x9159015a3070dd17, 0x152fecd8f70e5939, 0x67332667ffc00b31, 0x8eb44a8768581511,
      0xdb0c2e0d64f98fa7, 0x47b5481dbefa4fa4]) ∧
    (∃ t, exec (.init .sha512) s = .next t ∧ t.h = #v[0x6a09e667f3bcc908, 0xbb67ae8584caa73b,
      0x3c6ef372fe94f82b, 0xa54ff53a5f1d36f1, 0x510e527fade682d1, 0x9b05688c2b3e6c1f,
      0x1f83d9abfb41bd6b, 0x5be0cd19137e2179]) ∧
    (∃ t, exec (.init .sha512t224) s = .next t ∧ t.h = #v[0x8c3d37c819544da2, 0x73e1996689dcd4d6,
      0x1dfab7ae32ff9c82, 0x679dd514582f9fcf, 0x0f6d2b697bd44da8, 0x77e36f7304c48942,
      0x3f9d85a86a1d36c8, 0x1112e6ad91d692a1]) ∧
    (∃ t, exec (.init .sha512t256) s = .next t ∧ t.h = #v[0x22312194fc2bf72c, 0x9f555fa3c84c64c2,
      0x2393b86b6f53b151, 0x963877195940eabd, 0x96283ee2a88effe3, 0xbe5e1e2553863992,
      0x2b0199fc2c85b8aa, 0x0eb72ddc81c52ca2]) ∧
    ∃ t, exec (.init .ripemd160) s = .next t ∧ t.h = #v[0x67452301, 0xefcdab89, 0x98badcfe, 0x10325476,
      0xc3d2e1f0, 0, 0, 0]

/-- 44_digest_facade.md R314, 40_block_buffer.md R121, R122: below the length limit, UPDATE of a live
instance counts the payload, compresses the full blocks of the pending bytes followed by the payload, in
order, ⌊(PLEN + n) / B⌋ of them, and keeps the rest pending. Frame: no other register changes, and a byte
of BUF changes only where a payload byte goes, at (PLEN + k) mod B (for the bytes at and above the new
PLEN, which the spec calls unobservable, that is the model's choice: log entry 4). -/
def Obligations.UpdateAbsorbsPayload : Prop :=
  ∀ (s : State) (a : Alg) (data : List Byte), s.Live a → s.plen.toNat < blockBytes a →
    s.len.toNat + data.length < 2 ^ 61 →
    ∃ t, exec (.update data) s = .next t ∧
      t.h = hashBlocks a s.h (s.pending ++ data) ∧
      (blocksOf a (s.pending ++ data)).length = (s.plen.toNat + data.length) / blockBytes a ∧
      t.pending = (s.pending ++ data).drop
        (blockBytes a * ((s.plen.toNat + data.length) / blockBytes a)) ∧
      t.plen.toNat = (s.plen.toNat + data.length) % blockBytes a ∧
      t.len.toNat = s.len.toNat + data.length ∧ t.phase = .updating ∧
      t.alg = s.alg ∧ t.fcode = s.fcode ∧ t.cp = s.cp ∧ t.resp = s.resp ∧ t.input = s.input ∧
      ∀ j (hj : j < 128), (∀ k, k < data.length → (s.plen.toNat + k) % blockBytes a ≠ j) →
        t.buf[j] = s.buf[j]

/-- 40_block_buffer.md R125: however a payload is cut into UPDATEs, `BufInput` and the commands leave the
same state as one UPDATE of the concatenation (below the length limit). -/
def Obligations.UpdateIsChunkInvariant : Prop :=
  (∀ (a : Alg) (s : State) (ds : List (List Byte)),
    ds.foldl (fun u d => u.bufInput a d) s = s.bufInput a ds.flatten) ∧
  ∀ (a : Alg) (s : State) (ds : List (List Byte)), s.Live a → ds ≠ [] →
    s.len.toNat + ds.flatten.length < 2 ^ 61 →
    ∃ t, execAll (ds.map .update) s = .next t ∧ exec (.update ds.flatten) s = .next t

/-- 44_digest_facade.md R318, 40_block_buffer.md R126 to R133: FINAL of a live instance compresses the
pending bytes followed by 0x80, the least number of zero bytes and the length field, one block when
PLEN + 1 + L ≤ B and two otherwise; it emits the digest, exactly OUT(ALG) bytes, and finalizes. Frame:
LEN, ALG, FCODE, `cp` and the stream stay; `BUF[0..B)` holds the last block, bytes above stay (what BUF
holds after FINAL is unobservable by R132 and the model's choice: log entry 4). -/
def Obligations.FinalPadsAndEmitsDigest : Prop :=
  ∀ (s : State) (a : Alg) (z : Nat) (msg : List Byte), s.Live a → s.plen.toNat < blockBytes a →
    LeastPadding a s.plen.toNat z →
    msg = s.pending ++ 0x80 :: (zeros z ++ lengthField a s.len) →
    ∃ t, exec .final s = .next t ∧
      t.h = hashBlocks a s.h msg ∧
      msg.length = (if s.plen.toNat + 1 + lengthBytes a ≤ blockBytes a then 1 else 2) * blockBytes a ∧
      t.resp = s.resp ++ (serialize a t.h).take (outBytes a) ∧
      t.resp.length = s.resp.length + outBytes a ∧
      t.phase = .finalized ∧ t.plen = 0 ∧ t.len = s.len ∧ t.alg = s.alg ∧ t.fcode = s.fcode ∧
      t.cp = s.cp ∧ t.input = s.input ∧
      t.buf.toList.take (blockBytes a) = msg.drop (msg.length - blockBytes a) ∧
      ∀ j (hj : j < 128), blockBytes a ≤ j → t.buf[j] = s.buf[j]

/-- 44_digest_facade.md R322: COMPRESS of a live instance replaces H by the compression of the payload
when that is exactly one block, and faults with BLOCK_LENGTH otherwise; BUF, PLEN, LEN and everything
else stay. -/
def Obligations.CompressRunsOneBlock : Prop :=
  ∀ (s : State) (a : Alg) (data : List Byte), s.Live a →
    (data.length = blockBytes a →
      exec (.compress data) s = .next { s with h := compress a s.h data, phase := .updating }) ∧
    (data.length ≠ blockBytes a →
      exec (.compress data) s = .next { s with phase := .faulted, fcode := some .blockLength })

/-- 60_exceptions.md R345: UPDATE of a live instance faults with LENGTH_OVERFLOW exactly when the message
would reach 2^61 bytes; otherwise the exact sum is the new count, and its bit count fits 64 bits. -/
def Obligations.LengthOverflowIsExact : Prop :=
  ∀ (s : State) (a : Alg) (data : List Byte), s.Live a →
    (2 ^ 61 ≤ s.len.toNat + data.length →
      exec (.update data) s = .next { s with phase := .faulted, fcode := some .lengthOverflow }) ∧
    (s.len.toNat + data.length < 2 ^ 61 →
      ∃ t, exec (.update data) s = .next t ∧ t.phase = .updating ∧ t.fcode = s.fcode ∧
        t.len.toNat = s.len.toNat + data.length ∧ 8 * t.len.toNat < 2 ^ 64)

/-- 44_digest_facade.md R326, R302: READ_STATE of a live instance emits the untruncated state, all SW(ALG)
words in the algorithm's byte order, 32, 64 or 20 bytes, and changes nothing else. -/
def Obligations.ReadStateEmitsTheWords : Prop :=
  ∀ (s : State) (a : Alg), s.Live a →
    exec .readState s = .next { s with resp := s.resp ++ serialize a s.h } ∧
      serialize a s.h =
        (if a = .sha224 ∨ a = .sha256 then
          [s.h[0], s.h[1], s.h[2], s.h[3], s.h[4], s.h[5], s.h[6], s.h[7]].flatMap
            fun x => toBE (x.toNat % 2 ^ 32) 4
        else if a = .ripemd160 then
          [s.h[0], s.h[1], s.h[2], s.h[3], s.h[4]].flatMap fun x => toLE (x.toNat % 2 ^ 32) 4
        else
          [s.h[0], s.h[1], s.h[2], s.h[3], s.h[4], s.h[5], s.h[6], s.h[7]].flatMap
            fun x => toBE x.toNat 8) ∧
      (serialize a s.h).length =
        (if a = .sha224 ∨ a = .sha256 then 32 else if a = .ripemd160 then 20 else 64)

/-- 44_digest_facade.md R330: STATUS, in every phase, emits the status word most-significant byte first
and changes nothing else. -/
def Obligations.StatusAnswersInEveryPhase : Prop :=
  ∀ s : State, exec .status s = .next { s with resp := s.resp ++ toBE s.statusWord.toNat 4 }

/-- 10_state.md R39, with the values of R36, R37 and 60_exceptions.md R341: each field of the status word
holds its register, and the reserved bits read 0. -/
def Obligations.StatusWordFields : Prop :=
  ∀ s : State,
    (s.statusWord.extractLsb 2 0).toNat = (match s.phase with
      | .idle => 0 | .fresh => 1 | .updating => 2 | .finalized => 3 | .faulted => 4) ∧
    s.statusWord.getLsbD 3 = false ∧
    (s.statusWord.extractLsb 7 4).toNat = (match s.alg with
      | none => 0 | some .sha224 => 1 | some .sha256 => 2 | some .sha384 => 3 | some .sha512 => 4
      | some .sha512t224 => 5 | some .sha512t256 => 6 | some .ripemd160 => 7) ∧
    s.statusWord.extractLsb 15 8 = s.plen ∧
    (s.statusWord.extractLsb 19 16).toNat = (match s.fcode with
      | none => 0 | some .illegalOpcode => 1 | some .reservedOperand => 2 | some .badAlg => 3
      | some .noInstance => 4 | some .updateAfterFinal => 5 | some .doubleFinal => 6
      | some .lengthOverflow => 7 | some .useAfterFinal => 8 | some .blockLength => 9) ∧
    s.statusWord.extractLsb 31 20 = 0

/-- 20_memory.md R74: a repeated STATUS or READ_STATE emits the same bytes again; a repeated UPDATE
appends its bytes twice; a repeated FINAL faults with DOUBLE_FINAL. -/
def Obligations.RepeatedCommands : Prop :=
  (∀ s : State, ∃ b, exec .status s = .next (s.emit b) ∧
    execAll [.status, .status] s = .next (s.emit (b ++ b))) ∧
  (∀ (s : State) (a : Alg), s.Live a → ∃ b, exec .readState s = .next (s.emit b) ∧
    execAll [.readState, .readState] s = .next (s.emit (b ++ b))) ∧
  (∀ (s : State) (a : Alg) (d : List Byte), s.Live a → s.len.toNat + 2 * d.length < 2 ^ 61 →
    ∃ t, execAll [.update d, .update d] s = .next t ∧ exec (.update (d ++ d)) s = .next t) ∧
  ∀ (s : State) (a : Alg), s.Live a → ∃ t, exec .final s = .next t ∧
    execAll [.final, .final] s = .next { t with phase := .faulted, fcode := some .doubleFinal }

/-! ### The buffer and the padding -/

/-- 40_block_buffer.md R127, R126: after the padding prefix PLEN = B − L, and the pending bytes are the
old ones, 0x80 and zeros, or, when the 0x80 byte and the length field do not fit, only zeros, the old
bytes having gone into a flushed block. -/
def Obligations.StandardPaddingLeavesRoom : Prop :=
  ∀ (s t : State) (a : Alg), s.plen.toNat < blockBytes a → t = s.standardPadding a →
    t.plen.toNat = blockBytes a - lengthBytes a ∧
    (s.plen.toNat + 1 + lengthBytes a ≤ blockBytes a →
      t.h = s.h ∧
      t.pending = s.pending ++ 0x80 :: zeros (blockBytes a - lengthBytes a - s.plen.toNat - 1)) ∧
    (blockBytes a < s.plen.toNat + 1 + lengthBytes a →
      t.h = compress a s.h (s.pending ++ 0x80 :: zeros (blockBytes a - s.plen.toNat - 1)) ∧
      t.pending = zeros (blockBytes a - lengthBytes a))

/-- 40_block_buffer.md R129, 20_memory.md R68: the bytes of the length field, and that the reduction
modulo 2^64 never changes the value. -/
def Obligations.LengthFieldBytes : Prop :=
  ∀ len : BitVec 64, len.toNat ≤ 2 ^ 61 - 1 →
    (∀ a, a = .sha224 ∨ a = .sha256 → lengthField a len = toBE (8 * len.toNat) 8) ∧
    (∀ a, a = .sha384 ∨ a = .sha512 ∨ a = .sha512t224 ∨ a = .sha512t256 →
      lengthField a len = zeros 8 ++ toBE (8 * len.toNat) 8 ∧
      lengthField a len = toBE (8 * len.toNat) 16) ∧
    lengthField .ripemd160 len = toLE (8 * len.toNat) 8

/-! ### Serialization -/

/-- 44_digest_facade.md R306: which state bits each digest holds. -/
def Obligations.DigestHoldsTheseWords : Prop :=
  ∀ (h : Vector Word64 8) (w : Nat → Nat → List Byte),
    (∀ i (hi : i < 8) k, w k i = toBE (h[i].toNat % 256 ^ k) k) →
    digest .sha224 h = (List.range 7).flatMap (w 4) ∧
    digest .sha256 h = (List.range 8).flatMap (w 4) ∧
    digest .sha384 h = (List.range 6).flatMap (w 8) ∧
    digest .sha512 h = (List.range 8).flatMap (w 8) ∧
    digest .sha512t224 h = (List.range 3).flatMap (w 8) ++ toBE (h[3].extractLsb 63 32).toNat 4 ∧
    digest .sha512t256 h = (List.range 4).flatMap (w 8) ∧
    digest .ripemd160 h = (List.range 5).flatMap fun i => (w 4 i).reverse

/-! ### The compression cores -/

/-- 41_sha2_32.md R157, R159, R160, R161: with `W` the schedule (the block's big-endian words, then the
recurrence) and `S` the working sets (H to begin with, then 64 rounds), COMPRESS's core for SHA-224 and
SHA-256 leaves `H[i] + S 64` in each word, zero-extended. Σ, σ, Ch and Maj are written out. -/
def Obligations.Compress32RunsTheRounds : Prop :=
  ∀ (a : Alg) (h : Vector Word64 8) (blk : List Byte) (W : Nat → Word32) (S : Nat → Working 32),
    a = .sha224 ∨ a = .sha256 → blk.length = 64 →
    (∀ i, i < 16 → W i = BitVec.ofNat 32 (be ((blk.drop (4 * i)).take 4))) →
    (∀ t, 16 ≤ t → t < 64 → W t = W (t - 16) +
      ((W (t - 15)).rotateRight 7 ^^^ (W (t - 15)).rotateRight 18 ^^^ (W (t - 15)) >>> 3) + W (t - 7) +
      ((W (t - 2)).rotateRight 17 ^^^ (W (t - 2)).rotateRight 19 ^^^ (W (t - 2)) >>> 10)) →
    S 0 = ⟨h[0].setWidth 32, h[1].setWidth 32, h[2].setWidth 32, h[3].setWidth 32,
      h[4].setWidth 32, h[5].setWidth 32, h[6].setWidth 32, h[7].setWidth 32⟩ →
    (∀ t T1 T2, t < 64 →
      T1 = (S t).h + ((S t).e.rotateRight 6 ^^^ (S t).e.rotateRight 11 ^^^ (S t).e.rotateRight 25) +
        (((S t).e &&& (S t).f) ^^^ (~~~(S t).e &&& (S t).g)) + k32.getD t 0 + W t →
      T2 = ((S t).a.rotateRight 2 ^^^ (S t).a.rotateRight 13 ^^^ (S t).a.rotateRight 22) +
        (((S t).a &&& (S t).b) ^^^ ((S t).a &&& (S t).c) ^^^ ((S t).b &&& (S t).c)) →
      S (t + 1) = ⟨T1 + T2, (S t).a, (S t).b, (S t).c, (S t).d + T1, (S t).e, (S t).f, (S t).g⟩) →
    compress a h blk =
      #v[((S 0).a + (S 64).a).setWidth 64, ((S 0).b + (S 64).b).setWidth 64,
        ((S 0).c + (S 64).c).setWidth 64, ((S 0).d + (S 64).d).setWidth 64,
        ((S 0).e + (S 64).e).setWidth 64, ((S 0).f + (S 64).f).setWidth 64,
        ((S 0).g + (S 64).g).setWidth 64, ((S 0).h + (S 64).h).setWidth 64]

/-- 42_sha2_64.md R207, R209, R210: the same for SHA-384, SHA-512, SHA-512/224 and SHA-512/256, with 80
rounds on 64-bit words. -/
def Obligations.Compress64RunsTheRounds : Prop :=
  ∀ (a : Alg) (h : Vector Word64 8) (blk : List Byte) (W : Nat → Word64) (S : Nat → Working 64),
    a = .sha384 ∨ a = .sha512 ∨ a = .sha512t224 ∨ a = .sha512t256 → blk.length = 128 →
    (∀ i, i < 16 → W i = BitVec.ofNat 64 (be ((blk.drop (8 * i)).take 8))) →
    (∀ t, 16 ≤ t → t < 80 → W t = W (t - 16) +
      ((W (t - 15)).rotateRight 1 ^^^ (W (t - 15)).rotateRight 8 ^^^ (W (t - 15)) >>> 7) + W (t - 7) +
      ((W (t - 2)).rotateRight 19 ^^^ (W (t - 2)).rotateRight 61 ^^^ (W (t - 2)) >>> 6)) →
    S 0 = ⟨h[0], h[1], h[2], h[3], h[4], h[5], h[6], h[7]⟩ →
    (∀ t T1 T2, t < 80 →
      T1 = (S t).h + ((S t).e.rotateRight 14 ^^^ (S t).e.rotateRight 18 ^^^ (S t).e.rotateRight 41) +
        (((S t).e &&& (S t).f) ^^^ (~~~(S t).e &&& (S t).g)) + k64.getD t 0 + W t →
      T2 = ((S t).a.rotateRight 28 ^^^ (S t).a.rotateRight 34 ^^^ (S t).a.rotateRight 39) +
        (((S t).a &&& (S t).b) ^^^ ((S t).a &&& (S t).c) ^^^ ((S t).b &&& (S t).c)) →
      S (t + 1) = ⟨T1 + T2, (S t).a, (S t).b, (S t).c, (S t).d + T1, (S t).e, (S t).f, (S t).g⟩) →
    compress a h blk =
      #v[h[0] + (S 80).a, h[1] + (S 80).b, h[2] + (S 80).c, h[3] + (S 80).d,
        h[4] + (S 80).e, h[5] + (S 80).f, h[6] + (S 80).g, h[7] + (S 80).h]

/-- 43_ripemd160.md R252, R253, R255, R256, R258: with `X` the block's little-endian words and `L`, `R`
the two paths, 80 rounds each from the same state and neither reading the other, the new words are the
cross-wired sums, zero-extended; H[5..7] stay. The five functions are written out. -/
def Obligations.Compress160RunsBothPaths : Prop :=
  ∀ (h : Vector Word64 8) (blk : List Byte) (X : Nat → Word32) (L R : Nat → Path)
    (F : Nat → Word32 → Word32 → Word32 → Word32) (rowNat : List (List Nat) → Nat → Nat),
    blk.length = 64 →
    (∀ i, i < 16 → X i = BitVec.ofNat 32 (le ((blk.drop (4 * i)).take 4))) →
    (∀ x y z, F 1 x y z = x ^^^ y ^^^ z ∧ F 2 x y z = (x &&& y) ||| (~~~x &&& z) ∧
      F 3 x y z = (x ||| ~~~y) ^^^ z ∧ F 4 x y z = (x &&& z) ||| (y &&& ~~~z) ∧
      F 5 x y z = x ^^^ (y ||| ~~~z)) →
    (∀ tab j, rowNat tab j = (tab.getD (j / 16) []).getD (j % 16) 0) →
    L 0 = ⟨h[0].setWidth 32, h[1].setWidth 32, h[2].setWidth 32, h[3].setWidth 32, h[4].setWidth 32⟩ →
    R 0 = L 0 →
    (∀ j, j < 80 → L (j + 1) = ⟨(L j).e,
      ((L j).a + F (j / 16 + 1) (L j).b (L j).c (L j).d + X (rowNat selLeft j) +
        addLeft.getD (j / 16) 0).rotateLeft (rowNat rotLeft j) + (L j).e,
      (L j).b, (L j).c.rotateLeft 10, (L j).d⟩) →
    (∀ j, j < 80 → R (j + 1) = ⟨(R j).e,
      ((R j).a + F (5 - j / 16) (R j).b (R j).c (R j).d + X (rowNat selRight j) +
        addRight.getD (j / 16) 0).rotateLeft (rowNat rotRight j) + (R j).e,
      (R j).b, (R j).c.rotateLeft 10, (R j).d⟩) →
    compress .ripemd160 h blk =
      #v[((L 0).b + (L 80).c + (R 80).d).setWidth 64, ((L 0).c + (L 80).d + (R 80).e).setWidth 64,
        ((L 0).d + (L 80).e + (R 80).a).setWidth 64, ((L 0).e + (L 80).a + (R 80).b).setWidth 64,
        ((L 0).a + (L 80).b + (R 80).c).setWidth 64, h[5], h[6], h[7]]

/-! ### Rules about the whole machine -/

/-- 10_state.md R32: H changes in exactly two ways: INIT loads the initial value of its algorithm, or
UPDATE, FINAL or COMPRESS folds it through the compression function over one or more whole blocks. -/
def Obligations.HashStateChangesInTwoWays : Prop :=
  ∀ s t : State, s.Inv → step s = .next t → t.h ≠ s.h →
    ∃ i rest, decode s.input = .command i rest ∧
      ((∃ a, i = .init a ∧ t.h = initialValue a) ∨
        (((∃ d, i = .update d) ∨ i = .final ∨ ∃ d, i = .compress d) ∧
          ∃ a blks, s.alg = some a ∧ blks ≠ [] ∧ (∀ b ∈ blks, b.length = blockBytes a) ∧
            t.h = blks.foldl (compress a) s.h))

/-- 10_state.md R36: every step keeps the phase or takes one of the transitions of the rule, each by the
commands it names; a fault comes from an illegal header or from UPDATE, FINAL, COMPRESS or READ_STATE, so
a decoded STATUS keeps the phase; these commands do take their transitions where they raise no fault;
reset leads to Idle. -/
def Obligations.PhaseTransitions : Prop :=
  (∀ s t : State, step s = .next t →
    (t.phase = .fresh ∧ s.phase ≠ .faulted ∧ ∃ a rest, decode s.input = .command (.init a) rest) ∨
    (t.phase = .updating ∧ (s.phase = .fresh ∨ s.phase = .updating) ∧
      ∃ d rest, decode s.input = .command (.update d) rest ∨
        decode s.input = .command (.compress d) rest) ∨
    (t.phase = .finalized ∧ (s.phase = .fresh ∨ s.phase = .updating) ∧
      ∃ rest, decode s.input = .command .final rest) ∨
    (t.phase = .faulted ∧ s.phase ≠ .faulted ∧ t.fcode ≠ none ∧
      ((∃ c rest, decode s.input = .illegal c rest) ∨
        ∃ i rest, decode s.input = .command i rest ∧
          ((∃ d, i = .update d) ∨ i = .final ∨ (∃ d, i = .compress d) ∨ i = .readState))) ∨
    (t.phase = s.phase ∧ (s.phase = .faulted ∨ decode s.input = .incomplete ∨
      ∃ rest, decode s.input = .command .readState rest ∨ decode s.input = .command .status rest))) ∧
  (∀ (s : State) (a : Alg), s.phase ≠ .faulted →
    ∃ t, exec (.init a) s = .next t ∧ t.phase = .fresh) ∧
  (∀ (s : State) (a : Alg) (d : List Byte), s.Live a →
    (s.len.toNat + d.length < 2 ^ 61 → ∃ t, exec (.update d) s = .next t ∧ t.phase = .updating) ∧
    (d.length = blockBytes a → ∃ t, exec (.compress d) s = .next t ∧ t.phase = .updating) ∧
    ∃ t, exec .final s = .next t ∧ t.phase = .finalized) ∧
  ∀ s : State, ∃ t, s.event .reset = .next t ∧ t.phase = .idle

/-- 10_state.md R35, R37: ALG is written only by a valid INIT; LEN is written 0 by INIT, grows by the
payload of an UPDATE that does not fault, and no other step changes it. -/
def Obligations.AlgorithmAndLengthRules : Prop :=
  ∀ s t : State, step s = .next t →
    (∃ a rest, decode s.input = .command (.init a) rest ∧ s.phase ≠ .faulted ∧ t.alg = some a ∧
      t.len = 0) ∨
    (∃ d rest, decode s.input = .command (.update d) rest ∧ t.phase = .updating ∧ t.alg = s.alg ∧
      t.len.toNat = s.len.toNat + d.length) ∨
    ((∀ d rest, decode s.input = .command (.update d) rest → t.phase = .faulted) ∧
      (∀ a rest, decode s.input = .command (.init a) rest → s.phase = .faulted) ∧
      t.alg = s.alg ∧ t.len = s.len)

/-- 10_state.md R41: RESP only grows at its end, and only FINAL, READ_STATE and STATUS append to it. -/
def Obligations.ResponsesOnlyGrow : Prop :=
  ∀ s t : State, step s = .next t →
    ∃ bs, t.resp = s.resp ++ bs ∧
      (bs ≠ [] → ∃ i rest, decode s.input = .command i rest ∧
        (i = .final ∨ i = .readState ∨ i = .status))

/-! ### The invariant -/

/-- The state after reset meets the invariant of 10_state.md R43. -/
def Obligations.ResetMeetsInvariant : Prop := State.reset.Inv

/-- 10_state.md R43: from every state that meets the invariant, a step leads to one that meets it. -/
def Obligations.StepKeepsInvariant : Prop := ∀ s t : State, s.Inv → step s = .next t → t.Inv

/-- From a state that meets the invariant, whatever the host writes, whenever it resets and however long
the core runs, no step stops, and the invariant holds between all of them (10_state.md R43,
60_exceptions.md R340). -/
def Obligations.EveryRunIsSafe : Prop :=
  ∀ s : State, s.Inv → s.Safe ∧ ∀ es t, s.events es = .next t → t.Inv

/-- The model's own choice (log entry 6): a step is never refused, and it stops only where UPDATE, FINAL,
COMPRESS or READ_STATE meets a live phase with ALG = 0, a state that 10_state.md R43 rules out. There it
does stop, by name. -/
def Obligations.StepStopsOnlyWithoutAlgorithm : Prop :=
  (∀ (s : State) (r : Refusal), step s ≠ .refused r) ∧
  (∀ (s : State) (r : Fault), step s = .fault r →
    r = .algUnset ∧ (s.phase = .fresh ∨ s.phase = .updating) ∧ s.alg = none ∧ ¬s.Inv) ∧
  ∀ (s : State) (d : List Byte) (i : Instr), s.phase = .fresh ∨ s.phase = .updating → s.alg = none →
    i = .update d ∨ i = .final ∨ i = .compress d ∨ i = .readState → exec i s = .fault .algUnset

/-! ### What no command observes -/

/-- 10_state.md R34: the bytes of BUF at and above PLEN are unobservable: two states that differ only in
them step to two states that differ only in them. -/
def Obligations.BufTailIsUnobservable : Prop :=
  ∀ s t : State, s.Inv → s.SameButBufTail t →
    ∃ s' t', step s = .next s' ∧ step t = .next t' ∧ s'.SameButBufTail t'

/-- 20_memory.md R78, 10_state.md R44: no command can observe what H and BUF hold after reset. Two runs of
any length on one command stream, from reset states that differ in H and BUF, emit the same bytes and
agree in all other registers; once an instance exists they agree in H and the pending bytes too. In
particular no claim depends on the model's own reset values of H and BUF (log entries 2 and 3). -/
def Obligations.ResetContentsAreUnobservable : Prop :=
  ∀ (h h' : Vector Word64 8) (b b' : Vector Byte 128) (stream : List Byte) (k : Nat),
    ∃ t t',
      Sys2Proof.core.run k { State.reset with h := h, buf := b, input := stream } = .next t ∧
      Sys2Proof.core.run k { State.reset with h := h', buf := b', input := stream } = .next t' ∧
      t.SameObservable t' ∧ t.resp = t'.resp ∧ t.statusWord = t'.statusWord

/-! ### Messages -/

/-- 44_digest_facade.md R335, 40_block_buffer.md R133: from the bytes of the commands to the bytes of the
digest. INIT, then UPDATEs with any payloads, then FINAL, read from the stream by as many steps, emit the
digest of the concatenated payloads M: the initial value folded through the compression function over
the blocks of M, 0x80, the least number of zero bytes and the length field, serialized and truncated. It
does not depend on the state before INIT nor on how M is cut. -/
def Obligations.CommandsComputeTheDigest : Prop :=
  ∀ (s : State) (a : Alg) (ds : List (List Byte)) (rest : List Byte) (z : Nat),
    s.phase ≠ .faulted → (∀ d ∈ ds, d.length < 2 ^ 24) → ds.flatten.length < 2 ^ 61 →
    LeastPadding a ds.flatten.length z →
    s.input = (.init a :: ds.map .update ++ [.final] : List Instr).flatMap encode ++ rest →
    ∃ t, Sys2Proof.core.run (ds.length + 2) s = .next t ∧ t.input = rest ∧ t.phase = .finalized ∧
      t.resp = s.resp ++ digest a (hashBlocks a (initialValue a)
        (ds.flatten ++ 0x80 :: (zeros z ++ lengthField a (BitVec.ofNat 64 ds.flatten.length))))

/-- 30_encoding.md R99: the expansion of a long UPDATE consists of well-formed UPDATEs, and leaves a live
instance in the state one UPDATE of the whole data leaves (below the length limit). That no empty UPDATE
ends the expansion of an exact multiple of 2^24 − 1 bytes is the model's choice (log entry 19). -/
def Obligations.LongUpdateExpansion : Prop :=
  ∀ (s : State) (a : Alg) (data : List Byte), s.Live a → s.len.toNat + data.length < 2 ^ 61 →
    (∀ i ∈ longUpdateCommands data, i.WellFormed ∧ ∃ d, i = .update d) ∧
    ∃ t, execAll (longUpdateCommands data) s = .next t ∧ exec (.update data) s = .next t

/-- 30_encoding.md R99 (HASHBLOCK), 44_digest_facade.md R322, R326: INIT, COMPRESS of one block and
READ_STATE emit the compression of that block from the initial value, and leave LEN and PLEN 0. -/
def Obligations.HashBlockExpansion : Prop :=
  ∀ (s : State) (a : Alg) (blk : List Byte), s.phase ≠ .faulted → blk.length = blockBytes a →
    ∃ t, execAll (hashBlockCommands a blk) s = .next t ∧
      t.resp = s.resp ++ serialize a (compress a (initialValue a) blk) ∧ t.phase = .updating ∧
      t.len = 0 ∧ t.plen = 0

/-! ### The constant tables -/

/-- 41_sha2_32.md R158, 42_sha2_64.md R208, 43_ripemd160.md R247 to R251: every entry of the round
constants, the message-word selections, the rotation amounts and the additive constants, row by row as
the rules print them. The statements about the cores read these tables. -/
def Obligations.TablesHoldTheseConstants : Prop :=
  k32 =
      [0x428a2f98, 0x71374491, 0xb5c0fbcf, 0xe9b5dba5, 0x3956c25b, 0x59f111f1, 0x923f82a4, 0xab1c5ed5] ++
      [0xd807aa98, 0x12835b01, 0x243185be, 0x550c7dc3, 0x72be5d74, 0x80deb1fe, 0x9bdc06a7, 0xc19bf174] ++
      [0xe49b69c1, 0xefbe4786, 0x0fc19dc6, 0x240ca1cc, 0x2de92c6f, 0x4a7484aa, 0x5cb0a9dc, 0x76f988da] ++
      [0x983e5152, 0xa831c66d, 0xb00327c8, 0xbf597fc7, 0xc6e00bf3, 0xd5a79147, 0x06ca6351, 0x14292967] ++
      [0x27b70a85, 0x2e1b2138, 0x4d2c6dfc, 0x53380d13, 0x650a7354, 0x766a0abb, 0x81c2c92e, 0x92722c85] ++
      [0xa2bfe8a1, 0xa81a664b, 0xc24b8b70, 0xc76c51a3, 0xd192e819, 0xd6990624, 0xf40e3585, 0x106aa070] ++
      [0x19a4c116, 0x1e376c08, 0x2748774c, 0x34b0bcb5, 0x391c0cb3, 0x4ed8aa4a, 0x5b9cca4f, 0x682e6ff3] ++
      [0x748f82ee, 0x78a5636f, 0x84c87814, 0x8cc70208, 0x90befffa, 0xa4506ceb, 0xbef9a3f7, 0xc67178f2] ∧
  k64 =
      [0x428a2f98d728ae22, 0x7137449123ef65cd, 0xb5c0fbcfec4d3b2f, 0xe9b5dba58189dbbc] ++
      [0x3956c25bf348b538, 0x59f111f1b605d019, 0x923f82a4af194f9b, 0xab1c5ed5da6d8118] ++
      [0xd807aa98a3030242, 0x12835b0145706fbe, 0x243185be4ee4b28c, 0x550c7dc3d5ffb4e2] ++
      [0x72be5d74f27b896f, 0x80deb1fe3b1696b1, 0x9bdc06a725c71235, 0xc19bf174cf692694] ++
      [0xe49b69c19ef14ad2, 0xefbe4786384f25e3, 0x0fc19dc68b8cd5b5, 0x240ca1cc77ac9c65] ++
      [0x2de92c6f592b0275, 0x4a7484aa6ea6e483, 0x5cb0a9dcbd41fbd4, 0x76f988da831153b5] ++
      [0x983e5152ee66dfab, 0xa831c66d2db43210, 0xb00327c898fb213f, 0xbf597fc7beef0ee4] ++
      [0xc6e00bf33da88fc2, 0xd5a79147930aa725, 0x06ca6351e003826f, 0x142929670a0e6e70] ++
      [0x27b70a8546d22ffc, 0x2e1b21385c26c926, 0x4d2c6dfc5ac42aed, 0x53380d139d95b3df] ++
      [0x650a73548baf63de, 0x766a0abb3c77b2a8, 0x81c2c92e47edaee6, 0x92722c851482353b] ++
      [0xa2bfe8a14cf10364, 0xa81a664bbc423001, 0xc24b8b70d0f89791, 0xc76c51a30654be30] ++
      [0xd192e819d6ef5218, 0xd69906245565a910, 0xf40e35855771202a, 0x106aa07032bbd1b8] ++
      [0x19a4c116b8d2d0c8, 0x1e376c085141ab53, 0x2748774cdf8eeb99, 0x34b0bcb5e19b48a8] ++
      [0x391c0cb3c5c95a63, 0x4ed8aa4ae3418acb, 0x5b9cca4f7763e373, 0x682e6ff3d6b2b8a3] ++
      [0x748f82ee5defb2fc, 0x78a5636f43172f60, 0x84c87814a1f0ab72, 0x8cc702081a6439ec] ++
      [0x90befffa23631e28, 0xa4506cebde82bde9, 0xbef9a3f7b2c67915, 0xc67178f2e372532b] ++
      [0xca273eceea26619c, 0xd186b8c721c0c207, 0xeada7dd6cde0eb1e, 0xf57d4f7fee6ed178] ++
      [0x06f067aa72176fba, 0x0a637dc5a2c898a6, 0x113f9804bef90dae, 0x1b710b35131c471b] ++
      [0x28db77f523047d84, 0x32caab7b40c72493, 0x3c9ebe0a15c9bebc, 0x431d67c49c100d4c] ++
      [0x4cc5d4becb3e42b6, 0x597f299cfc657e2a, 0x5fcb6fab3ad6faec, 0x6c44198c4a475817] ∧
  selLeft =
      [[0, 1, 2, 3, 4, 5, 6, 7, 8, 9, 10, 11, 12, 13, 14, 15],
       [7, 4, 13, 1, 10, 6, 15, 3, 12, 0, 9, 5, 2, 14, 11, 8],
       [3, 10, 14, 4, 9, 15, 8, 1, 2, 7, 0, 6, 13, 11, 5, 12],
       [1, 9, 11, 10, 0, 8, 12, 4, 13, 3, 7, 15, 14, 5, 6, 2],
       [4, 0, 5, 9, 7, 12, 2, 10, 14, 1, 3, 8, 11, 6, 15, 13]] ∧
  selRight =
      [[5, 14, 7, 0, 9, 2, 11, 4, 13, 6, 15, 8, 1, 10, 3, 12],
       [6, 11, 3, 7, 0, 13, 5, 10, 14, 15, 8, 12, 4, 9, 1, 2],
       [15, 5, 1, 3, 7, 14, 6, 9, 11, 8, 12, 2, 10, 0, 4, 13],
       [8, 6, 4, 1, 3, 11, 15, 0, 5, 12, 2, 13, 9, 7, 10, 14],
       [12, 15, 10, 4, 1, 5, 8, 7, 6, 2, 13, 14, 0, 3, 9, 11]] ∧
  rotLeft =
      [[11, 14, 15, 12, 5, 8, 7, 9, 11, 13, 14, 15, 6, 7, 9, 8],
       [7, 6, 8, 13, 11, 9, 7, 15, 7, 12, 15, 9, 11, 7, 13, 12],
       [11, 13, 6, 7, 14, 9, 13, 15, 14, 8, 13, 6, 5, 12, 7, 5],
       [11, 12, 14, 15, 14, 15, 9, 8, 9, 14, 5, 6, 8, 6, 5, 12],
       [9, 15, 5, 11, 6, 8, 13, 12, 5, 12, 13, 14, 11, 8, 5, 6]] ∧
  rotRight =
      [[8, 9, 9, 11, 13, 15, 15, 5, 7, 7, 8, 11, 14, 14, 12, 6],
       [9, 13, 15, 7, 12, 8, 9, 11, 7, 7, 12, 7, 6, 15, 13, 11],
       [9, 7, 15, 11, 8, 6, 6, 14, 12, 13, 5, 14, 13, 13, 7, 5],
       [15, 5, 8, 11, 14, 14, 6, 14, 6, 9, 12, 9, 12, 5, 15, 8],
       [8, 5, 12, 9, 12, 5, 14, 6, 8, 13, 6, 5, 15, 13, 11, 11]] ∧
  addLeft = [0x00000000, 0x5a827999, 0x6ed9eba1, 0x8f1bbcdc, 0xa953fd4e] ∧
  addRight = [0x50a28be6, 0x5c4dd124, 0x6d703ef3, 0x7a6d76e9, 0x00000000]
end

