-- ==== Sys2Proof/Laws/Bytes.lean ====
section
/-! SUPPORT. Laws of the byte order helpers of Decode.lean (00_scope.md R13). -/

namespace Sys2Proof

@[simp] theorem toLE_length (x k : Nat) : (toLE x k).length = k := by
  induction k generalizing x with
  | zero => rfl
  | succ k ih => simp [toLE, ih]

@[simp] theorem toBE_length (x k : Nat) : (toBE x k).length = k := by simp [toBE]

@[simp] theorem zeros_length (n : Nat) : (zeros n).length = n := by simp [zeros]

@[simp] theorem headerBytes_length (hdr : Word32) : (headerBytes hdr).length = 4 := by
  simp [headerBytes]

theorem zeros_add (m n : Nat) : zeros (m + n) = zeros m ++ zeros n := by
  rw [zeros, List.replicate_add, zeros, zeros]

/-- `le` after `to_le` is reduction modulo `256^k`. -/
theorem le_toLE (x k : Nat) : le (toLE x k) = x % 256 ^ k := by
  induction k generalizing x with
  | zero => simp [toLE, le, Nat.mod_one]
  | succ k ih =>
    have h : x % 256 ^ (k + 1) = x % 256 + 256 * (x / 256 % 256 ^ k) := by
      rw [Nat.pow_succ, Nat.mul_comm, Nat.mod_mul]
    simp [toLE, le, ih, h]

/-- `to_le` after `le` gives the bytes back. -/
theorem toLE_le (s : List Byte) : toLE (le s) s.length = s := by
  induction s with
  | nil => rfl
  | cons b s ih =>
    have hb : b.toNat < 256 := b.isLt
    have h1 : BitVec.ofNat 8 (b.toNat + 256 * le s) = b := by
      apply BitVec.eq_of_toNat_eq
      simp only [BitVec.toNat_ofNat]
      omega
    have h2 : (b.toNat + 256 * le s) / 256 = le s := by omega
    simp only [le, List.length_cons, toLE, h1, h2, ih]

theorem be_eq_foldl (s : List Byte) (n : Nat) :
    s.foldl (fun acc b => acc * 256 + b.toNat) n = n * 256 ^ s.length + be s := by
  induction s generalizing n with
  | nil => simp [be]
  | cons b s ih =>
    simp only [be, List.foldl_cons, List.length_cons] at *
    rw [ih, ih (0 * 256 + b.toNat), Nat.pow_succ]
    ring

theorem be_append (s t : List Byte) : be (s ++ t) = be s * 256 ^ t.length + be t := by
  rw [be, List.foldl_append, be_eq_foldl]
  rfl

/-- Reading most-significant byte first is reading the reversed bytes least-significant first. -/
theorem be_reverse (s : List Byte) : be s.reverse = le s := by
  induction s with
  | nil => rfl
  | cons b s ih =>
    rw [List.reverse_cons, be_append, ih]
    simp [be, le]
    ring

theorem be_toBE (x k : Nat) : be (toBE x k) = x % 256 ^ k := by
  rw [toBE, be_reverse, le_toLE]

theorem toBE_be (s : List Byte) : toBE (be s) s.length = s := by
  have h := toLE_le s.reverse
  rw [← be_reverse, List.reverse_reverse, List.length_reverse] at h
  rw [toBE, h, List.reverse_reverse]

theorem toLE_add (x j k : Nat) : toLE x (j + k) = toLE x j ++ toLE (x / 256 ^ j) k := by
  induction j generalizing x with
  | zero => simp [toLE]
  | succ j ih =>
    rw [show j + 1 + k = (j + k) + 1 by omega]
    simp only [toLE, List.cons_append, ih, Nat.div_div_eq_div_mul]
    rw [Nat.pow_succ, Nat.mul_comm]

theorem toLE_zero (k : Nat) : toLE 0 k = zeros k := by
  induction k with
  | zero => rfl
  | succ k ih => simp [toLE, ih, zeros, List.replicate_succ]

/-- A value that fits `k` bytes fills the bytes above with zeros. -/
theorem toBE_add_of_lt {x j k : Nat} (h : x < 256 ^ k) : toBE x (j + k) = zeros j ++ toBE x k := by
  rw [toBE, Nat.add_comm j k, toLE_add, Nat.div_eq_of_lt h, toLE_zero, List.reverse_append, toBE]
  simp [zeros]

theorem be_lt (s : List Byte) : be s < 256 ^ s.length := by
  induction s using List.reverseRecOn with
  | nil => simp [be]
  | append_singleton s b ih =>
    have hb : b.toNat < 256 := b.isLt
    have h1 : be [b] = b.toNat := by simp [be]
    rw [be_append, List.length_append, h1]
    simp only [List.length_singleton, Nat.pow_succ, Nat.pow_zero]
    omega

/-- The header read back from its four bytes. -/
theorem frontHeader_headerBytes (hdr : Word32) (bs : List Byte) :
    frontHeader (headerBytes hdr ++ bs) = hdr := by
  rw [frontHeader, List.take_append_of_le_length (by simp),
    List.take_of_length_le (by simp), headerBytes, be_toBE]
  apply BitVec.eq_of_toNat_eq
  have h := hdr.isLt
  simp only [BitVec.toNat_ofNat]
  omega

/-- Four bytes are the bytes of the header they spell. -/
theorem headerBytes_frontHeader {bs : List Byte} (h : 4 ≤ bs.length) :
    headerBytes (frontHeader bs) = bs.take 4 := by
  have hl : (bs.take 4).length = 4 := by simp [h]
  have hlt := be_lt (bs.take 4)
  rw [hl] at hlt
  have ht : (frontHeader bs).toNat = be (bs.take 4) := by
    rw [frontHeader, BitVec.toNat_ofNat]
    exact Nat.mod_eq_of_lt hlt
  rw [headerBytes, ht]
  conv_rhs => rw [← toBE_be (bs.take 4), hl]

end Sys2Proof
end

