-- ==== Sys2Proof/Laws/Blocks.lean ====
section
/-! SUPPORT. Laws of the one-shot view of a message: blocks, the folded state, and the bytes left over
(40_block_buffer.md R122, R133). -/

namespace Sys2Proof.Machine

/-- The bytes that do not fill a block. -/
def leftOver (a : Alg) (bs : List Byte) : List Byte :=
  bs.drop (blockBytes a * (bs.length / blockBytes a))

theorem blockBytes_pos (a : Alg) : 0 < blockBytes a := by cases a <;> decide

theorem blockBytes_le (a : Alg) : blockBytes a ≤ 128 := by cases a <;> decide

theorem lengthBytes_pos (a : Alg) : 0 < lengthBytes a := by cases a <;> decide

/-- The 0x80 byte and the length field fit into one block. -/
theorem lengthBytes_lt (a : Alg) : lengthBytes a + 1 ≤ blockBytes a := by cases a <;> decide

theorem cutBlocks_length (b k : Nat) (bs : List Byte) : (cutBlocks b k bs).length = k := by
  induction k generalizing bs with
  | zero => rfl
  | succ k ih => simp [cutBlocks, ih]

theorem blocksOf_length (a : Alg) (bs : List Byte) :
    (blocksOf a bs).length = bs.length / blockBytes a := cutBlocks_length _ _ _

theorem mem_cutBlocks_length {b k : Nat} {bs blk : List Byte} (hk : k * b ≤ bs.length)
    (h : blk ∈ cutBlocks b k bs) : blk.length = b := by
  induction k generalizing bs with
  | zero => simp [cutBlocks] at h
  | succ k ih =>
    have hk2 : k * b + b ≤ bs.length := by rwa [Nat.succ_mul] at hk
    simp only [cutBlocks, List.mem_cons] at h
    rcases h with rfl | h
    · rw [List.length_take]
      omega
    · refine ih ?_ h
      rw [List.length_drop]
      omega

/-- Every block has exactly `B(alg)` bytes. -/
theorem mem_blocksOf_length {a : Alg} {bs blk : List Byte} (h : blk ∈ blocksOf a bs) :
    blk.length = blockBytes a := mem_cutBlocks_length (Nat.div_mul_le_self _ _) h

theorem blocksOf_of_lt {a : Alg} {bs : List Byte} (h : bs.length < blockBytes a) :
    blocksOf a bs = [] := by rw [blocksOf, Nat.div_eq_of_lt h, cutBlocks]

theorem blocksOf_append {a : Alg} {blk : List Byte} (h : blk.length = blockBytes a)
    (bs : List Byte) : blocksOf a (blk ++ bs) = blk :: blocksOf a bs := by
  have hd : (blk ++ bs).length / blockBytes a = bs.length / blockBytes a + 1 := by
    rw [List.length_append, h, Nat.add_div_left _ (blockBytes_pos a)]
  rw [blocksOf, hd, cutBlocks, List.take_left' h, List.drop_left' h, blocksOf]

theorem leftOver_of_lt {a : Alg} {bs : List Byte} (h : bs.length < blockBytes a) :
    leftOver a bs = bs := by rw [leftOver, Nat.div_eq_of_lt h, Nat.mul_zero, List.drop_zero]

theorem leftOver_append {a : Alg} {blk : List Byte} (h : blk.length = blockBytes a)
    (bs : List Byte) : leftOver a (blk ++ bs) = leftOver a bs := by
  rw [leftOver, List.length_append, h, Nat.add_div_left _ (blockBytes_pos a), Nat.mul_succ,
    Nat.add_comm, ← List.drop_drop, List.drop_left' h, leftOver]

theorem leftOver_length (a : Alg) (bs : List Byte) :
    (leftOver a bs).length = bs.length % blockBytes a := by
  rw [leftOver, List.length_drop, Nat.mod_def]

/-- The blocks and the bytes left over are the whole sequence. -/
theorem blocksOf_flatten (a : Alg) (bs : List Byte) :
    (blocksOf a bs).flatten ++ leftOver a bs = bs := by
  have key : ∀ (k : Nat) (bs : List Byte), k * blockBytes a ≤ bs.length →
      (cutBlocks (blockBytes a) k bs).flatten = bs.take (blockBytes a * k) := by
    intro k
    induction k with
    | zero => simp [cutBlocks]
    | succ k ih =>
      intro bs hk
      rw [Nat.succ_mul] at hk
      rw [cutBlocks, List.flatten_cons, ih _ (by rw [List.length_drop]; omega), Nat.mul_succ,
        Nat.add_comm, List.take_add]
  rw [blocksOf, leftOver, key _ _ (Nat.div_mul_le_self _ _), List.take_append_drop]

theorem hashBlocks_of_lt {a : Alg} {bs : List Byte} (h : bs.length < blockBytes a)
    (hs : Vector Word64 8) : hashBlocks a hs bs = hs := by rw [hashBlocks, blocksOf_of_lt h]; rfl

/-- A block in front is one compression. -/
theorem hashBlocks_append {a : Alg} {blk : List Byte} (h : blk.length = blockBytes a)
    (hs : Vector Word64 8) (bs : List Byte) :
    hashBlocks a hs (blk ++ bs) = hashBlocks a (compress a hs blk) bs := by
  rw [hashBlocks, blocksOf_append h, List.foldl_cons, hashBlocks]

theorem hashBlocks_block {a : Alg} {blk : List Byte} (h : blk.length = blockBytes a)
    (hs : Vector Word64 8) : hashBlocks a hs blk = compress a hs blk := by
  have h2 := hashBlocks_append h hs []
  have h3 := hashBlocks_of_lt (a := a) (bs := []) (blockBytes_pos a) (compress a hs blk)
  rwa [List.append_nil, h3] at h2

/-- Folding in two stages: the bytes left over by the first stage go in front of the second. -/
theorem hashBlocks_leftOver (a : Alg) (hs : Vector Word64 8) (bs cs : List Byte) :
    hashBlocks a hs (bs ++ cs) = hashBlocks a (hashBlocks a hs bs) (leftOver a bs ++ cs) := by
  have key : ∀ (n : Nat) (hs : Vector Word64 8) (bs : List Byte), bs.length ≤ n →
      hashBlocks a hs (bs ++ cs) = hashBlocks a (hashBlocks a hs bs) (leftOver a bs ++ cs) := by
    intro n
    induction n with
    | zero =>
      intro hs bs hn
      have hb : bs.length < blockBytes a := by have := blockBytes_pos a; omega
      rw [hashBlocks_of_lt hb, leftOver_of_lt hb]
    | succ n ih =>
      intro hs bs hn
      by_cases hb : bs.length < blockBytes a
      · rw [hashBlocks_of_lt hb, leftOver_of_lt hb]
      · have hp := blockBytes_pos a
        have ht : (bs.take (blockBytes a)).length = blockBytes a := by
          rw [List.length_take]
          omega
        have hsplit : bs = bs.take (blockBytes a) ++ bs.drop (blockBytes a) :=
          (List.take_append_drop _ _).symm
        rw [hsplit, List.append_assoc, hashBlocks_append ht, hashBlocks_append ht, leftOver_append ht]
        exact ih _ _ (by rw [List.length_drop]; omega)
  exact key bs.length hs bs (Nat.le_refl _)

theorem leftOver_leftOver (a : Alg) (bs cs : List Byte) :
    leftOver a (bs ++ cs) = leftOver a (leftOver a bs ++ cs) := by
  have key : ∀ (n : Nat) (bs : List Byte), bs.length ≤ n →
      leftOver a (bs ++ cs) = leftOver a (leftOver a bs ++ cs) := by
    intro n
    induction n with
    | zero =>
      intro bs hn
      have hb : bs.length < blockBytes a := by have := blockBytes_pos a; omega
      rw [leftOver_of_lt hb]
    | succ n ih =>
      intro bs hn
      by_cases hb : bs.length < blockBytes a
      · rw [leftOver_of_lt hb]
      · have hp := blockBytes_pos a
        have ht : (bs.take (blockBytes a)).length = blockBytes a := by
          rw [List.length_take]
          omega
        have hsplit : bs = bs.take (blockBytes a) ++ bs.drop (blockBytes a) :=
          (List.take_append_drop _ _).symm
        rw [hsplit, List.append_assoc, leftOver_append ht, leftOver_append ht]
        exact ih _ (by rw [List.length_drop]; omega)
  exact key bs.length bs (Nat.le_refl _)

/-- The least padding of R133 as a number. -/
theorem leastPadding_iff (a : Alg) (m z : Nat) :
    LeastPadding a m z ↔
      z = (blockBytes a - (m + 1 + lengthBytes a) % blockBytes a) % blockBytes a := by
  have hB : blockBytes a = 64 ∨ blockBytes a = 128 := by cases a <;> decide
  have hadd : ∀ y, m + 1 + y + lengthBytes a = (m + 1 + lengthBytes a) + y := by intro y; omega
  constructor
  · rintro ⟨h1, h2⟩
    by_contra hne
    have h3 := h2 ((blockBytes a - (m + 1 + lengthBytes a) % blockBytes a) % blockBytes a)
    simp only [hadd] at h1 h3
    rcases hB with hB | hB <;> rw [hB] at h1 h3 hne <;> omega
  · rintro rfl
    refine ⟨?_, ?_⟩
    · simp only [hadd]
      rcases hB with hB | hB <;> rw [hB] <;> omega
    · intro y hy h
      simp only [hadd] at h
      rcases hB with hB | hB <;> rw [hB] at h hy <;> omega

end Sys2Proof.Machine
end

