-- ==== Sys2Proof/Laws/Decode.lean ====
section
/-! SUPPORT. Laws of the decoder and the encoder (30_encoding.md). Later proofs cite `frame_eq_some`,
`decode_eq_command` and `decode_eq_illegal` instead of unfolding `frame` and `decode`. -/

namespace Sys2Proof

/-! ### Header fields -/

theorem header_getLsbD (op : BitVec 8) (x : BitVec 24) (i : Nat) :
    (header op x).getLsbD i = if i < 24 then x.getLsbD i else op.getLsbD (i - 24) := by
  have h := BitVec.getLsbD_append (x := op) (y := x) (i := i)
  simpa [header] using h

@[simp] theorem headerOp_header (op : BitVec 8) (x : BitVec 24) : headerOp (header op x) = op := by
  apply BitVec.eq_of_getLsbD_eq
  intro i hi
  rw [headerOp, BitVec.getLsbD_extractLsb, header_getLsbD]
  simp
  omega

@[simp] theorem headerOperand_header (op : BitVec 8) (x : BitVec 24) :
    headerOperand (header op x) = x := by
  apply BitVec.eq_of_getLsbD_eq
  intro i hi
  rw [headerOperand, BitVec.getLsbD_extractLsb, header_getLsbD]
  have h2 : i < 24 := by omega
  simp [h2]

/-- A header is its opcode and its operand. -/
theorem header_fields (hdr : Word32) : header (headerOp hdr) (headerOperand hdr) = hdr := by
  apply BitVec.eq_of_getLsbD_eq
  intro i hi
  rw [header_getLsbD]
  split
  · have h : i ≤ 23 := by omega
    simp [headerOperand, h]
  · have h : i - 24 ≤ 7 := by omega
    simp only [headerOp, BitVec.getLsbD_extractLsb, show 24 + (i - 24) = i by omega]
    simp
    omega

theorem headerAlg_eq (hdr : Word32) : headerAlg hdr = (headerOperand hdr).setWidth 4 := by
  apply BitVec.eq_of_getLsbD_eq
  intro i hi
  simp [headerAlg, headerOperand, hi]
  omega

theorem headerReservedA_eq (hdr : Word32) :
    headerReservedA hdr = (headerOperand hdr).extractLsb 23 4 := by
  apply BitVec.eq_of_getLsbD_eq
  intro i hi
  simp [headerReservedA, headerOperand, hi]
  omega

/-- With its reserved bits clear, the operand of format A is its algorithm field. -/
theorem operand_of_reservedA_zero {x : BitVec 24} (h : x.extractLsb 23 4 = 0) :
    x = (x.setWidth 4).setWidth 24 := by
  have h2 := congrArg BitVec.toNat h
  apply BitVec.eq_of_toNat_eq
  have hx := x.isLt
  simp [BitVec.extractLsb_toNat, Nat.shiftRight_eq_div_pow] at h2 ⊢
  omega

/-! ### Algorithm codes -/

@[simp] theorem algOfCode_codeOfAlg (a : Alg) : algOfCode (codeOfAlg a) = some a := by
  cases a <;> decide

theorem codeOfAlg_of_algOfCode {c : BitVec 4} {a : Alg} (h : algOfCode c = some a) :
    codeOfAlg a = c := by
  revert h
  simp only [algOfCode]
  repeat' split
  all_goals first
    | (rintro ⟨⟩; simp_all [codeOfAlg])
    | simp

/-! ### One command cut off a stream -/

theorem frame_eq_none {bs : List Byte} :
    frame bs = none ↔ bs.length < 4 ∨ bs.length < 4 + payloadLength (frontHeader bs) := by
  rw [frame]
  split
  · simp [*]
  · split <;> simp [*]

/-- What `frame` says: the stream is a header, a payload of the length the header gives, and the rest. -/
theorem frame_eq_some {bs : List Byte} {f : Framed} :
    frame bs = some f ↔
      bs = headerBytes f.hdr ++ (f.data ++ f.rest) ∧ f.data.length = payloadLength f.hdr := by
  constructor
  · intro h
    rw [frame] at h
    split at h
    · cases h
    · rename_i h4
      split at h
      · cases h
      · rename_i hp
        cases h
        refine ⟨?_, ?_⟩
        · rw [headerBytes_frontHeader (by omega), ← List.drop_drop, List.take_append_drop,
            List.take_append_drop]
        · simp only [List.length_take, List.length_drop]
          omega
  · rintro ⟨hb, hl⟩
    have hf : frontHeader bs = f.hdr := by rw [hb, frontHeader_headerBytes]
    have hlen : bs.length = 4 + (f.data.length + f.rest.length) := by rw [hb]; simp
    rw [frame, if_neg (by omega), hf, if_neg (by omega), ← hl]
    have hd : bs.drop 4 = f.data ++ f.rest := by rw [hb]; exact List.drop_left' (by simp)
    rw [← List.drop_drop, hd, List.take_left' rfl, List.drop_left' rfl]

theorem frame_append {bs : List Byte} {f : Framed} (h : frame bs = some f) (more : List Byte) :
    frame (bs ++ more) = some { f with rest := f.rest ++ more } := by
  rw [frame_eq_some] at h ⊢
  exact ⟨by simp [h.1], h.2⟩

theorem frame_length {bs : List Byte} {f : Framed} (h : frame bs = some f) :
    bs.length = 4 + payloadLength f.hdr + f.rest.length := by
  rw [frame_eq_some] at h
  rw [h.1]
  simp [← h.2]
  omega

theorem frame_rest {bs : List Byte} {f : Framed} (h : frame bs = some f) :
    f.rest = bs.drop (4 + payloadLength f.hdr) := by
  rw [frame_eq_some] at h
  rw [h.1, ← List.drop_drop, List.drop_left' (headerBytes_length _), ← h.2, List.drop_left' rfl]

theorem frame_hdr {bs : List Byte} {f : Framed} (h : frame bs = some f) : f.hdr = frontHeader bs := by
  rw [frame_eq_some] at h
  rw [h.1, frontHeader_headerBytes]

/-! ### The decoder -/

theorem decode_eq_incomplete {bs : List Byte} : decode bs = .incomplete ↔ frame bs = none := by
  rw [decode]
  split
  · simp [*]
  · split <;> simp [*]

theorem decode_eq_illegal {bs rest : List Byte} {c : FaultCode} :
    decode bs = .illegal c rest ↔
      ∃ f, frame bs = some f ∧ decodeCommand f.hdr f.data = .error c ∧ f.rest = rest := by
  rw [decode]
  split
  · simp [*]
  · split <;> simp [*]

theorem decode_eq_command {bs rest : List Byte} {i : Instr} :
    decode bs = .command i rest ↔
      ∃ f, frame bs = some f ∧ decodeCommand f.hdr f.data = .ok i ∧ f.rest = rest := by
  rw [decode]
  split
  · simp [*]
  · split <;> simp [*]

/-- Opcodes 0x02 and 0x04 are never illegal, so an illegal header has no payload (R96). -/
theorem payloadLength_of_error {hdr : Word32} {data : List Byte} {c : FaultCode}
    (h : decodeCommand hdr data = .error c) : payloadLength hdr = 0 := by
  rw [payloadLength, if_neg]
  rintro (h2 | h2) <;> simp [decodeCommand, h2] at h

/-! ### The encoder -/

/-- The header of a well-formed command gives its payload's length. -/
theorem payloadLength_encodeHeader {i : Instr} (h : i.WellFormed) :
    payloadLength (encodeHeader i) = (payload i).length := by
  cases i <;> simp [Instr.WellFormed, Instr.wellFormed] at h <;>
    simp [payloadLength, encodeHeader, payload] <;> omega

/-- The verdict on a command's own header and payload is the command. -/
theorem decodeCommand_encodeHeader (i : Instr) :
    decodeCommand (encodeHeader i) (payload i) = .ok i := by
  cases i with
  | init a =>
    have h1 : headerReservedA (encodeHeader (.init a)) = 0 := by cases a <;> decide
    have h2 : headerAlg (encodeHeader (.init a)) = codeOfAlg a := by cases a <;> decide
    have h3 : headerOp (encodeHeader (.init a)) = 0x01 := by simp [encodeHeader]
    simp [decodeCommand, h1, h2, h3]
  | update data => simp [decodeCommand, encodeHeader, payload]
  | final => simp [decodeCommand, encodeHeader]
  | compress data => simp [decodeCommand, encodeHeader, payload]
  | readState => simp [decodeCommand, encodeHeader]
  | status => simp [decodeCommand, encodeHeader]

theorem hdr_eq_header {hdr : Word32} {op : BitVec 8} {x : BitVec 24} (h : headerOp hdr = op)
    (h2 : headerOperand hdr = x) : hdr = header op x := by rw [← header_fields hdr, h, h2]

/-- A header and a payload of its length that the decoder accepts are those of the command. -/
theorem encode_of_decodeCommand {hdr : Word32} {data : List Byte} {i : Instr}
    (h : decodeCommand hdr data = .ok i) (hl : data.length = payloadLength hdr) :
    hdr = encodeHeader i ∧ data = payload i ∧ i.WellFormed := by
  have hz : headerOp hdr ≠ 0x02 → headerOp hdr ≠ 0x04 → data = [] := by
    intro h1 h2
    rw [payloadLength, if_neg (fun h3 => h3.elim h1 h2)] at hl
    exact List.length_eq_zero_iff.mp hl
  have hn : headerOp hdr = 0x02 ∨ headerOp hdr = 0x04 →
      headerOperand hdr = BitVec.ofNat 24 data.length ∧ data.length < 2 ^ 24 := by
    intro h1
    rw [payloadLength, if_pos h1] at hl
    exact ⟨by rw [hl]; simp, by rw [hl]; exact (headerOperand hdr).isLt⟩
  rw [decodeCommand] at h
  split at h
  · rename_i op
    split at h
    · cases h
    · rename_i hr
      split at h
      · cases h
      · rename_i a ha
        cases h
        have hc := codeOfAlg_of_algOfCode ha
        rw [headerAlg_eq] at hc
        have ho := operand_of_reservedA_zero (by simpa [headerReservedA_eq] using hr)
        refine ⟨hdr_eq_header op ?_, hz (by simp [op]) (by simp [op]), rfl⟩
        rw [hc]
        exact ho
  · split at h
    · rename_i op
      cases h
      have h2 := hn (.inl op)
      exact ⟨hdr_eq_header op h2.1, rfl, by simpa [Instr.WellFormed, Instr.wellFormed] using h2.2⟩
    · split at h
      · rename_i op
        split at h
        · cases h
        · rename_i h0
          cases h
          exact ⟨hdr_eq_header op (by simpa using h0), hz (by simp [op]) (by simp [op]), rfl⟩
      · split at h
        · rename_i op
          cases h
          have h2 := hn (.inr op)
          exact ⟨hdr_eq_header op h2.1, rfl, by simpa [Instr.WellFormed, Instr.wellFormed] using h2.2⟩
        · split at h
          · rename_i op
            split at h
            · cases h
            · rename_i h0
              cases h
              exact ⟨hdr_eq_header op (by simpa using h0), hz (by simp [op]) (by simp [op]), rfl⟩
          · split at h
            · rename_i op
              split at h
              · cases h
              · rename_i h0
                cases h
                exact ⟨hdr_eq_header op (by simpa using h0), hz (by simp [op]) (by simp [op]), rfl⟩
            · cases h

end Sys2Proof
end

