-- ==== Sys2Proof/Laws/State.lean ====
section
/-! SUPPORT. One lemma per field and operation of the state: what the operation leaves in the field.
Later proofs use these and unfold no record update. -/

namespace Sys2Proof.Machine

/-! ### `emit` -/

@[simp] theorem emit_h (bs : List Byte) (s : State) :
    (State.emit bs s).h = s.h := rfl

@[simp] theorem emit_buf (bs : List Byte) (s : State) :
    (State.emit bs s).buf = s.buf := rfl

@[simp] theorem emit_plen (bs : List Byte) (s : State) :
    (State.emit bs s).plen = s.plen := rfl

@[simp] theorem emit_len (bs : List Byte) (s : State) :
    (State.emit bs s).len = s.len := rfl

@[simp] theorem emit_phase (bs : List Byte) (s : State) :
    (State.emit bs s).phase = s.phase := rfl

@[simp] theorem emit_alg (bs : List Byte) (s : State) :
    (State.emit bs s).alg = s.alg := rfl

@[simp] theorem emit_fcode (bs : List Byte) (s : State) :
    (State.emit bs s).fcode = s.fcode := rfl

@[simp] theorem emit_cp (bs : List Byte) (s : State) :
    (State.emit bs s).cp = s.cp := rfl

@[simp] theorem emit_resp (bs : List Byte) (s : State) :
    (State.emit bs s).resp = s.resp ++ bs := rfl

@[simp] theorem emit_input (bs : List Byte) (s : State) :
    (State.emit bs s).input = s.input := rfl

/-! ### `processBlock` -/

@[simp] theorem processBlock_h (a : Alg) (blk : List Byte) (s : State) :
    (State.processBlock a blk s).h = compress a s.h blk := rfl

@[simp] theorem processBlock_buf (a : Alg) (blk : List Byte) (s : State) :
    (State.processBlock a blk s).buf = s.buf := rfl

@[simp] theorem processBlock_plen (a : Alg) (blk : List Byte) (s : State) :
    (State.processBlock a blk s).plen = s.plen := rfl

@[simp] theorem processBlock_len (a : Alg) (blk : List Byte) (s : State) :
    (State.processBlock a blk s).len = s.len := rfl

@[simp] theorem processBlock_phase (a : Alg) (blk : List Byte) (s : State) :
    (State.processBlock a blk s).phase = s.phase := rfl

@[simp] theorem processBlock_alg (a : Alg) (blk : List Byte) (s : State) :
    (State.processBlock a blk s).alg = s.alg := rfl

@[simp] theorem processBlock_fcode (a : Alg) (blk : List Byte) (s : State) :
    (State.processBlock a blk s).fcode = s.fcode := rfl

@[simp] theorem processBlock_cp (a : Alg) (blk : List Byte) (s : State) :
    (State.processBlock a blk s).cp = s.cp := rfl

@[simp] theorem processBlock_resp (a : Alg) (blk : List Byte) (s : State) :
    (State.processBlock a blk s).resp = s.resp := rfl

@[simp] theorem processBlock_input (a : Alg) (blk : List Byte) (s : State) :
    (State.processBlock a blk s).input = s.input := rfl

/-! ### `zeroFill` -/

@[simp] theorem zeroFill_h (hi : Nat) (s : State) :
    (State.zeroFill hi s).h = s.h := rfl

@[simp] theorem zeroFill_buf (hi : Nat) (s : State) :
    (State.zeroFill hi s).buf = writeBuf s.buf s.plen.toNat (zeros (hi - s.plen.toNat)) := rfl

@[simp] theorem zeroFill_plen (hi : Nat) (s : State) :
    (State.zeroFill hi s).plen = s.plen := rfl

@[simp] theorem zeroFill_len (hi : Nat) (s : State) :
    (State.zeroFill hi s).len = s.len := rfl

@[simp] theorem zeroFill_phase (hi : Nat) (s : State) :
    (State.zeroFill hi s).phase = s.phase := rfl

@[simp] theorem zeroFill_alg (hi : Nat) (s : State) :
    (State.zeroFill hi s).alg = s.alg := rfl

@[simp] theorem zeroFill_fcode (hi : Nat) (s : State) :
    (State.zeroFill hi s).fcode = s.fcode := rfl

@[simp] theorem zeroFill_cp (hi : Nat) (s : State) :
    (State.zeroFill hi s).cp = s.cp := rfl

@[simp] theorem zeroFill_resp (hi : Nat) (s : State) :
    (State.zeroFill hi s).resp = s.resp := rfl

@[simp] theorem zeroFill_input (hi : Nat) (s : State) :
    (State.zeroFill hi s).input = s.input := rfl

/-! ### `padMark` -/

@[simp] theorem padMark_h (s : State) :
    (State.padMark s).h = s.h := rfl

@[simp] theorem padMark_buf (s : State) :
    (State.padMark s).buf = writeBuf s.buf s.plen.toNat [0x80] := rfl

@[simp] theorem padMark_plen (s : State) :
    (State.padMark s).plen = s.plen + 1 := rfl

@[simp] theorem padMark_len (s : State) :
    (State.padMark s).len = s.len := rfl

@[simp] theorem padMark_phase (s : State) :
    (State.padMark s).phase = s.phase := rfl

@[simp] theorem padMark_alg (s : State) :
    (State.padMark s).alg = s.alg := rfl

@[simp] theorem padMark_fcode (s : State) :
    (State.padMark s).fcode = s.fcode := rfl

@[simp] theorem padMark_cp (s : State) :
    (State.padMark s).cp = s.cp := rfl

@[simp] theorem padMark_resp (s : State) :
    (State.padMark s).resp = s.resp := rfl

@[simp] theorem padMark_input (s : State) :
    (State.padMark s).input = s.input := rfl

/-! ### `writeLength` -/

@[simp] theorem writeLength_h (a : Alg) (s : State) :
    (State.writeLength a s).h = s.h := rfl

@[simp] theorem writeLength_buf (a : Alg) (s : State) :
    (State.writeLength a s).buf = writeBuf s.buf (blockBytes a - lengthBytes a) (lengthField a s.len) := rfl

@[simp] theorem writeLength_plen (a : Alg) (s : State) :
    (State.writeLength a s).plen = BitVec.ofNat 8 (blockBytes a) := rfl

@[simp] theorem writeLength_len (a : Alg) (s : State) :
    (State.writeLength a s).len = s.len := rfl

@[simp] theorem writeLength_phase (a : Alg) (s : State) :
    (State.writeLength a s).phase = s.phase := rfl

@[simp] theorem writeLength_alg (a : Alg) (s : State) :
    (State.writeLength a s).alg = s.alg := rfl

@[simp] theorem writeLength_fcode (a : Alg) (s : State) :
    (State.writeLength a s).fcode = s.fcode := rfl

@[simp] theorem writeLength_cp (a : Alg) (s : State) :
    (State.writeLength a s).cp = s.cp := rfl

@[simp] theorem writeLength_resp (a : Alg) (s : State) :
    (State.writeLength a s).resp = s.resp := rfl

@[simp] theorem writeLength_input (a : Alg) (s : State) :
    (State.writeLength a s).input = s.input := rfl

/-! ### `hostWrite` -/

@[simp] theorem hostWrite_h (bs : List Byte) (s : State) :
    (State.hostWrite bs s).h = s.h := rfl

@[simp] theorem hostWrite_buf (bs : List Byte) (s : State) :
    (State.hostWrite bs s).buf = s.buf := rfl

@[simp] theorem hostWrite_plen (bs : List Byte) (s : State) :
    (State.hostWrite bs s).plen = s.plen := rfl

@[simp] theorem hostWrite_len (bs : List Byte) (s : State) :
    (State.hostWrite bs s).len = s.len := rfl

@[simp] theorem hostWrite_phase (bs : List Byte) (s : State) :
    (State.hostWrite bs s).phase = s.phase := rfl

@[simp] theorem hostWrite_alg (bs : List Byte) (s : State) :
    (State.hostWrite bs s).alg = s.alg := rfl

@[simp] theorem hostWrite_fcode (bs : List Byte) (s : State) :
    (State.hostWrite bs s).fcode = s.fcode := rfl

@[simp] theorem hostWrite_cp (bs : List Byte) (s : State) :
    (State.hostWrite bs s).cp = s.cp := rfl

@[simp] theorem hostWrite_resp (bs : List Byte) (s : State) :
    (State.hostWrite bs s).resp = s.resp := rfl

@[simp] theorem hostWrite_input (bs : List Byte) (s : State) :
    (State.hostWrite bs s).input = s.input ++ bs := rfl

/-! ### `withFetchWord` -/

@[simp] theorem withFetchWord_h (nbits w : Nat) (s : State) :
    (State.withFetchWord s nbits w).h = s.h := rfl

@[simp] theorem withFetchWord_buf (nbits w : Nat) (s : State) :
    (State.withFetchWord s nbits w).buf = s.buf := rfl

@[simp] theorem withFetchWord_plen (nbits w : Nat) (s : State) :
    (State.withFetchWord s nbits w).plen = s.plen := rfl

@[simp] theorem withFetchWord_len (nbits w : Nat) (s : State) :
    (State.withFetchWord s nbits w).len = s.len := rfl

@[simp] theorem withFetchWord_phase (nbits w : Nat) (s : State) :
    (State.withFetchWord s nbits w).phase = s.phase := rfl

@[simp] theorem withFetchWord_alg (nbits w : Nat) (s : State) :
    (State.withFetchWord s nbits w).alg = s.alg := rfl

@[simp] theorem withFetchWord_fcode (nbits w : Nat) (s : State) :
    (State.withFetchWord s nbits w).fcode = s.fcode := rfl

@[simp] theorem withFetchWord_cp (nbits w : Nat) (s : State) :
    (State.withFetchWord s nbits w).cp = s.cp := rfl

@[simp] theorem withFetchWord_resp (nbits w : Nat) (s : State) :
    (State.withFetchWord s nbits w).resp = s.resp := rfl

@[simp] theorem withFetchWord_input (nbits w : Nat) (s : State) :
    (State.withFetchWord s nbits w).input = tableWordBytes nbits w ++ s.input := rfl

/-! ### `pastCommand` -/

@[simp] theorem pastCommand_h (f : Framed) (s : State) :
    (State.pastCommand s f).h = s.h := rfl

@[simp] theorem pastCommand_buf (f : Framed) (s : State) :
    (State.pastCommand s f).buf = s.buf := rfl

@[simp] theorem pastCommand_plen (f : Framed) (s : State) :
    (State.pastCommand s f).plen = s.plen := rfl

@[simp] theorem pastCommand_len (f : Framed) (s : State) :
    (State.pastCommand s f).len = s.len := rfl

@[simp] theorem pastCommand_phase (f : Framed) (s : State) :
    (State.pastCommand s f).phase = s.phase := rfl

@[simp] theorem pastCommand_alg (f : Framed) (s : State) :
    (State.pastCommand s f).alg = s.alg := rfl

@[simp] theorem pastCommand_fcode (f : Framed) (s : State) :
    (State.pastCommand s f).fcode = s.fcode := rfl

@[simp] theorem pastCommand_cp (f : Framed) (s : State) :
    (State.pastCommand s f).cp = s.cp + 4 + payloadLength f.hdr := rfl

@[simp] theorem pastCommand_resp (f : Framed) (s : State) :
    (State.pastCommand s f).resp = s.resp := rfl

@[simp] theorem pastCommand_input (f : Framed) (s : State) :
    (State.pastCommand s f).input = f.rest := rfl

/-! ### `raiseFault` -/

@[simp] theorem raiseFault_h (c : FaultCode) (s : State) : (State.raiseFault c s).h = s.h := by
  unfold State.raiseFault
  split <;> rfl

@[simp] theorem raiseFault_buf (c : FaultCode) (s : State) : (State.raiseFault c s).buf = s.buf := by
  unfold State.raiseFault
  split <;> rfl

@[simp] theorem raiseFault_plen (c : FaultCode) (s : State) : (State.raiseFault c s).plen = s.plen := by
  unfold State.raiseFault
  split <;> rfl

@[simp] theorem raiseFault_len (c : FaultCode) (s : State) : (State.raiseFault c s).len = s.len := by
  unfold State.raiseFault
  split <;> rfl

@[simp] theorem raiseFault_alg (c : FaultCode) (s : State) : (State.raiseFault c s).alg = s.alg := by
  unfold State.raiseFault
  split <;> rfl

@[simp] theorem raiseFault_cp (c : FaultCode) (s : State) : (State.raiseFault c s).cp = s.cp := by
  unfold State.raiseFault
  split <;> rfl

@[simp] theorem raiseFault_resp (c : FaultCode) (s : State) : (State.raiseFault c s).resp = s.resp := by
  unfold State.raiseFault
  split <;> rfl

@[simp] theorem raiseFault_input (c : FaultCode) (s : State) : (State.raiseFault c s).input = s.input := by
  unfold State.raiseFault
  split <;> rfl

/-- Whatever the phase was, it is Faulted afterwards. -/
@[simp] theorem raiseFault_phase (c : FaultCode) (s : State) :
    (State.raiseFault c s).phase = .faulted := by
  unfold State.raiseFault
  split <;> simp_all

theorem raiseFault_of_ne {s : State} (h : s.phase ≠ .faulted) (c : FaultCode) :
    State.raiseFault c s = { s with fcode := some c, phase := .faulted } := by
  unfold State.raiseFault
  split <;> simp_all

theorem raiseFault_of_faulted {s : State} (h : s.phase = .faulted) (c : FaultCode) :
    State.raiseFault c s = s := by simp [State.raiseFault, h]

theorem raiseFault_fcode_of_ne {s : State} (h : s.phase ≠ .faulted) (c : FaultCode) :
    (State.raiseFault c s).fcode = some c := by rw [raiseFault_of_ne h]

/-! ### Reset -/

theorem reset_h : State.reset.h = Vector.replicate 8 0 := rfl

theorem reset_buf : State.reset.buf = Vector.replicate 128 0 := rfl

@[simp] theorem reset_plen : State.reset.plen = 0 := rfl

@[simp] theorem reset_len : State.reset.len = 0 := rfl

@[simp] theorem reset_phase : State.reset.phase = .idle := rfl

@[simp] theorem reset_alg : State.reset.alg = none := rfl

@[simp] theorem reset_fcode : State.reset.fcode = none := rfl

@[simp] theorem reset_cp : State.reset.cp = 0 := rfl

@[simp] theorem reset_resp : State.reset.resp = [] := rfl

@[simp] theorem reset_input : State.reset.input = [] := rfl

@[simp] theorem hostReset_eq (s : State) : s.hostReset = State.reset := rfl

end Sys2Proof.Machine
end

