-- ==== Sys2Proof/Laws/Ops.lean ====
section
/-! SUPPORT. What the shared operations and one step can do, said once: `receive_eq_some`,
`withInstance_eq_next`, `exec_eq_next` and `step_cases`. -/

namespace Sys2Proof.Machine

/-! ### Receiving -/

theorem receive_eq_none {s : State} : s.receive = none ↔ frame s.input = none := by
  rw [State.receive]
  split <;> simp [*]

theorem receive_of_frame {s : State} {f : Framed} (h : frame s.input = some f) :
    s.receive = some { hdr := f.hdr, data := f.data, after := s.pastCommand f } := by
  rw [State.receive, h]
  rfl

/-! ### One step -/

/-- While the command is incomplete, the core waits (70_reset_and_hazards.md R392). -/
theorem step_of_incomplete {s : State} (h : frame s.input = none) : step s = .next s := by
  rw [step, receive_eq_none.mpr h]

/-- A complete command is consumed, and then runs or raises the fault of its header. -/
theorem step_of_frame {s : State} {f : Framed} (h : frame s.input = some f) :
    step s = match decodeCommand f.hdr f.data with
      | .error c => .next ((s.pastCommand f).raiseFault c)
      | .ok i => exec i (s.pastCommand f) := by
  cases hd : decodeCommand f.hdr f.data <;> simp [step, receive_of_frame h, hd]

theorem step_of_error {s : State} {f : Framed} {c : FaultCode} (h : frame s.input = some f)
    (hd : decodeCommand f.hdr f.data = .error c) :
    step s = .next ((s.pastCommand f).raiseFault c) := by rw [step_of_frame h, hd]

theorem step_of_ok {s : State} {f : Framed} {i : Instr} (h : frame s.input = some f)
    (hd : decodeCommand f.hdr f.data = .ok i) : step s = exec i (s.pastCommand f) := by
  rw [step_of_frame h, hd]

/-- Everything a step that answers a next state can have done. -/
theorem step_cases {s t : State} (h : step s = .next t) :
    (frame s.input = none ∧ t = s) ∨
      (∃ f c, frame s.input = some f ∧ decodeCommand f.hdr f.data = .error c ∧
        t = (s.pastCommand f).raiseFault c) ∨
      ∃ f i, frame s.input = some f ∧ decodeCommand f.hdr f.data = .ok i ∧
        exec i (s.pastCommand f) = .next t := by
  cases hf : frame s.input with
  | none =>
    rw [step_of_incomplete hf] at h
    cases h
    exact .inl ⟨rfl, rfl⟩
  | some f =>
    cases hd : decodeCommand f.hdr f.data with
    | error c =>
      rw [step_of_error hf hd] at h
      cases h
      exact .inr (.inl ⟨f, c, rfl, hd, rfl⟩)
    | ok i =>
      rw [step_of_ok hf hd] at h
      exact .inr (.inr ⟨f, i, rfl, hd, h⟩)

/-! ### The phase checks -/

theorem withInstance_of_live {a : Alg} {s : State} (h : s.Live a) (c : FaultCode)
    (body : Alg → State) : s.withInstance c body = .next (body a) := by
  obtain ⟨h1 | h1, h2⟩ := h <;> simp [State.withInstance, h1, h2]

theorem withInstance_of_idle {s : State} (h : s.phase = .idle) (c : FaultCode)
    (body : Alg → State) : s.withInstance c body = .next (s.raiseFault .noInstance) := by
  simp [State.withInstance, h]

theorem withInstance_of_finalized {s : State} (h : s.phase = .finalized) (c : FaultCode)
    (body : Alg → State) : s.withInstance c body = .next (s.raiseFault c) := by
  simp [State.withInstance, h]

theorem withInstance_of_faulted {s : State} (h : s.phase = .faulted) (c : FaultCode)
    (body : Alg → State) : s.withInstance c body = .next s := by
  simp [State.withInstance, h]

/-- Everything `withInstance` can have done if it answers a next state. -/
theorem withInstance_eq_next {c : FaultCode} {s t : State} {body : Alg → State}
    (h : s.withInstance c body = .next t) :
    (s.phase = .faulted ∧ t = s) ∨
      (s.phase = .idle ∧ t = s.raiseFault .noInstance) ∨
      (s.phase = .finalized ∧ t = s.raiseFault c) ∨
      ∃ a, s.Live a ∧ t = body a := by
  cases hp : s.phase with
  | faulted =>
    rw [withInstance_of_faulted hp] at h
    cases h
    exact .inl ⟨rfl, rfl⟩
  | idle =>
    rw [withInstance_of_idle hp] at h
    cases h
    exact .inr (.inl ⟨rfl, rfl⟩)
  | finalized =>
    rw [withInstance_of_finalized hp] at h
    cases h
    exact .inr (.inr (.inl ⟨rfl, rfl⟩))
  | fresh =>
    cases ha : s.alg with
    | none => simp [State.withInstance, hp, ha] at h
    | some a =>
      rw [withInstance_of_live ⟨.inl hp, ha⟩] at h
      cases h
      exact .inr (.inr (.inr ⟨a, ⟨.inl hp, ha⟩, rfl⟩))
  | updating =>
    cases ha : s.alg with
    | none => simp [State.withInstance, hp, ha] at h
    | some a =>
      rw [withInstance_of_live ⟨.inr hp, ha⟩] at h
      cases h
      exact .inr (.inr (.inr ⟨a, ⟨.inr hp, ha⟩, rfl⟩))

/-- When `withInstance` answers at all: in every state but one that ALG = 0 rules out (R43). -/
theorem withInstance_next {c : FaultCode} {s : State} {body : Alg → State}
    (h : s.phase = .fresh ∨ s.phase = .updating → s.alg ≠ none) :
    ∃ t, s.withInstance c body = .next t := by
  unfold State.withInstance
  split <;> try exact ⟨_, rfl⟩
  · split
    · simp_all
    · exact ⟨_, rfl⟩
  · split
    · simp_all
    · exact ⟨_, rfl⟩

/-! ### The meanings -/

/-- The state INIT leaves (R310). -/
def freshInstance (a : Alg) (s : State) : State :=
  { s with alg := some a, h := initialValue a, plen := 0, len := 0, phase := .fresh }

/-- The state UPDATE leaves when it does not overflow (R314). -/
def afterUpdate (a : Alg) (data : List Byte) (s : State) : State :=
  { State.bufInput a data { s with len := s.len + BitVec.ofNat 64 data.length } with
    phase := .updating }

/-- The state FINAL leaves (R318). -/
def afterFinal (a : Alg) (s : State) : State :=
  { (s.finish a).emit (digest a (s.finish a).h) with phase := .finalized }

/-- The state COMPRESS leaves (R322). -/
def afterCompress (a : Alg) (data : List Byte) (s : State) : State :=
  { s.processBlock a data with phase := .updating }

theorem execInit_of_ne {s : State} (h : s.phase ≠ .faulted) (a : Alg) :
    exec (.init a) s = .next (freshInstance a s) := by
  simp only [exec, execInit]
  split <;> simp_all [freshInstance]

theorem execUpdate_of_live {a : Alg} {s : State} (h : s.Live a) (data : List Byte) :
    exec (.update data) s = .next (if lengthLimit ≤ s.len.toNat + data.length
      then s.raiseFault .lengthOverflow else afterUpdate a data s) := by
  simp only [exec, execUpdate, withInstance_of_live h, afterUpdate]

theorem execFinal_of_live {a : Alg} {s : State} (h : s.Live a) :
    exec .final s = .next (afterFinal a s) := by
  simp only [exec, execFinal, withInstance_of_live h, afterFinal]

theorem execCompress_of_live {a : Alg} {s : State} (h : s.Live a) (data : List Byte) :
    exec (.compress data) s = .next (if data.length ≠ blockBytes a
      then s.raiseFault .blockLength else afterCompress a data s) := by
  simp only [exec, execCompress, withInstance_of_live h, afterCompress]

theorem execReadState_of_live {a : Alg} {s : State} (h : s.Live a) :
    exec .readState s = .next (s.emit (serialize a s.h)) := by
  simp only [exec, execReadState, withInstance_of_live h]

theorem execStatus_eq (s : State) : exec .status s = .next (s.emit (toBE s.statusWord.toNat 4)) := rfl

/-- In the Faulted phase every command but STATUS is discarded (60_exceptions.md R346). -/
theorem exec_of_faulted {s : State} (h : s.phase = .faulted) {i : Instr} (hi : i ≠ .status) :
    exec i s = .next s := by
  cases i <;> simp_all [exec, execInit, execUpdate, execFinal, execCompress, execReadState,
    withInstance_of_faulted]

/-- Everything a command that answers a next state can have done. -/
theorem exec_eq_next {i : Instr} {s t : State} (h : exec i s = .next t) :
    (s.phase = .faulted ∧ i ≠ .status ∧ t = s) ∨
      (s.phase ≠ .faulted ∧ (∀ a, i ≠ .init a) ∧ i ≠ .status ∧ ∃ c, t = s.raiseFault c) ∨
      (∃ a, i = .init a ∧ s.phase ≠ .faulted ∧ t = freshInstance a s) ∨
      (∃ a data, i = .update data ∧ s.Live a ∧ s.len.toNat + data.length < lengthLimit ∧
        t = afterUpdate a data s) ∨
      (∃ a, i = .final ∧ s.Live a ∧ t = afterFinal a s) ∨
      (∃ a data, i = .compress data ∧ s.Live a ∧ data.length = blockBytes a ∧
        t = afterCompress a data s) ∨
      (∃ a, i = .readState ∧ s.Live a ∧ t = s.emit (serialize a s.h)) ∨
      (i = .status ∧ t = s.emit (toBE s.statusWord.toNat 4)) := by
  have live_ne : ∀ {a}, s.Live a → s.phase ≠ .faulted := by
    rintro a ⟨h1 | h1, -⟩ <;> simp [h1]
  cases i with
  | init a =>
    by_cases hp : s.phase = .faulted
    · rw [exec_of_faulted hp (by simp)] at h
      cases h
      exact .inl ⟨hp, by simp, rfl⟩
    · rw [execInit_of_ne hp] at h
      cases h
      exact .inr (.inr (.inl ⟨a, rfl, hp, rfl⟩))
  | update data =>
    obtain ⟨h1, rfl⟩ | ⟨h1, rfl⟩ | ⟨h1, rfl⟩ | ⟨a, ha, rfl⟩ := withInstance_eq_next h
    · exact .inl ⟨h1, by simp, rfl⟩
    · exact .inr (.inl ⟨by simp [h1], by simp, by simp, _, rfl⟩)
    · exact .inr (.inl ⟨by simp [h1], by simp, by simp, _, rfl⟩)
    · by_cases hl : lengthLimit ≤ s.len.toNat + data.length
      · exact .inr (.inl ⟨live_ne ha, by simp, by simp, _, if_pos hl⟩)
      · exact .inr (.inr (.inr (.inl ⟨a, data, rfl, ha, by omega, if_neg hl⟩)))
  | final =>
    obtain ⟨h1, rfl⟩ | ⟨h1, rfl⟩ | ⟨h1, rfl⟩ | ⟨a, ha, rfl⟩ := withInstance_eq_next h
    · exact .inl ⟨h1, by simp, rfl⟩
    · exact .inr (.inl ⟨by simp [h1], by simp, by simp, _, rfl⟩)
    · exact .inr (.inl ⟨by simp [h1], by simp, by simp, _, rfl⟩)
    · exact .inr (.inr (.inr (.inr (.inl ⟨a, rfl, ha, rfl⟩))))
  | compress data =>
    obtain ⟨h1, rfl⟩ | ⟨h1, rfl⟩ | ⟨h1, rfl⟩ | ⟨a, ha, rfl⟩ := withInstance_eq_next h
    · exact .inl ⟨h1, by simp, rfl⟩
    · exact .inr (.inl ⟨by simp [h1], by simp, by simp, _, rfl⟩)
    · exact .inr (.inl ⟨by simp [h1], by simp, by simp, _, rfl⟩)
    · by_cases hl : data.length = blockBytes a
      · exact .inr (.inr (.inr (.inr (.inr (.inl ⟨a, data, rfl, ha, hl, if_neg (by simp [hl])⟩)))))
      · exact .inr (.inl ⟨live_ne ha, by simp, by simp, _, if_pos hl⟩)
  | readState =>
    obtain ⟨h1, rfl⟩ | ⟨h1, rfl⟩ | ⟨h1, rfl⟩ | ⟨a, ha, rfl⟩ := withInstance_eq_next h
    · exact .inl ⟨h1, by simp, rfl⟩
    · exact .inr (.inl ⟨by simp [h1], by simp, by simp, _, rfl⟩)
    · exact .inr (.inl ⟨by simp [h1], by simp, by simp, _, rfl⟩)
    · exact .inr (.inr (.inr (.inr (.inr (.inr (.inl ⟨a, rfl, ha, rfl⟩))))))
  | status =>
    cases h
    exact .inr (.inr (.inr (.inr (.inr (.inr (.inr ⟨rfl, rfl⟩))))))

/-- A command answers a next state wherever ALG names an algorithm while an instance is live. -/
theorem exec_next {s : State} (h : s.phase = .fresh ∨ s.phase = .updating → s.alg ≠ none)
    (i : Instr) : ∃ t, exec i s = .next t := by
  cases i with
  | init a =>
    by_cases hp : s.phase = .faulted
    · exact ⟨_, exec_of_faulted hp (by simp)⟩
    · exact ⟨_, execInit_of_ne hp a⟩
  | update data => exact withInstance_next h
  | final => exact withInstance_next h
  | compress data => exact withInstance_next h
  | readState => exact withInstance_next h
  | status => exact ⟨_, rfl⟩

end Sys2Proof.Machine
end

