-- ==== Sys2Proof/Laws/Buffer.lean ====
section
/-! SUPPORT. What the block buffer does (40_block_buffer.md), said once for each operation in terms of
the pending bytes: `bufInput_spec`, `standardPadding_spec`, `finish_spec`. -/

namespace Sys2Proof.Machine

/-! ### Writing into the buffer -/

/-- Inside the buffer, the bytes written are the bytes read back, and all others stay. -/
theorem writeBuf_toList (buf : Vector Byte Config.bufBytes) (pos : Nat) (bs : List Byte)
    (h : pos + bs.length ≤ 128) :
    (writeBuf buf pos bs).toList = buf.toList.take pos ++ (bs ++ buf.toList.drop (pos + bs.length)) := by
  induction bs generalizing buf pos with
  | nil => simp [writeBuf]
  | cons b bs ih =>
    simp only [List.length_cons] at h
    have hlen : buf.toList.length = 128 := by simp
    have hset : (buf.setIfInBounds pos b).toList
        = buf.toList.take pos ++ (b :: buf.toList.drop (pos + 1)) := by
      rw [Vector.toList_setIfInBounds, List.set_eq_take_append_cons_drop, if_pos (by omega)]
    have htake : (buf.toList.take pos).length = pos := by
      rw [List.length_take]
      omega
    rw [writeBuf, ih _ _ (by omega), hset]
    have h1 : (buf.toList.take pos ++ b :: buf.toList.drop (pos + 1)).take (pos + 1)
        = buf.toList.take pos ++ [b] := by
      rw [List.take_append, htake, List.take_of_length_le (by omega),
        show pos + 1 - pos = 1 by omega]
      rfl
    have h2 : (buf.toList.take pos ++ b :: buf.toList.drop (pos + 1)).drop (pos + 1 + bs.length)
        = buf.toList.drop (pos + (bs.length + 1)) := by
      rw [List.drop_append, htake, List.drop_of_length_le (by omega),
        show pos + 1 + bs.length - pos = bs.length + 1 by omega, List.drop_succ_cons,
        List.drop_drop, List.nil_append]
      congr 1
      omega
    rw [h1, h2]
    simp

/-- A byte outside the positions written stays, whatever the position. -/
theorem writeBuf_getElem_of_out (buf : Vector Byte Config.bufBytes) (pos : Nat) (bs : List Byte)
    (j : Nat) (hj : j < 128) (h : j < pos ∨ pos + bs.length ≤ j) :
    (writeBuf buf pos bs)[j] = buf[j] := by
  induction bs generalizing buf pos with
  | nil => rfl
  | cons b bs ih =>
    simp only [List.length_cons] at h
    rw [writeBuf, ih _ _ (by omega), Vector.getElem_setIfInBounds, if_neg (by omega)]

/-- The bytes up to the end of what is written. -/
theorem writeBuf_take (buf : Vector Byte Config.bufBytes) (pos : Nat) (bs : List Byte)
    (h : pos + bs.length ≤ 128) :
    (writeBuf buf pos bs).toList.take (pos + bs.length) = buf.toList.take pos ++ bs := by
  have hlen : buf.toList.length = 128 := by simp
  have htake : (buf.toList.take pos).length = pos := by
    rw [List.length_take]
    omega
  rw [writeBuf_toList _ _ _ h, ← List.append_assoc]
  exact List.take_left' (by rw [List.length_append, htake])

theorem pending_length {s : State} (h : s.plen.toNat ≤ 128) : s.pending.length = s.plen.toNat := by
  have hlen : s.buf.toList.length = 128 := by simp
  rw [State.pending, List.length_take]
  omega

theorem plen_succ {s : State} (h : s.plen.toNat < 128) : (s.plen + 1).toNat = s.plen.toNat + 1 := by
  rw [BitVec.toNat_add]
  have : (1 : BitVec 8).toNat = 1 := rfl
  omega

theorem plen_lt_128 {a : Alg} {s : State} (h : s.plen.toNat < blockBytes a) : s.plen.toNat < 128 :=
  Nat.lt_of_lt_of_le h (blockBytes_le a)

/-! ### `BufInput` -/

/-- One byte: it joins the pending bytes; a block that is now full is compressed and the buffer is
empty (R121, R122). -/
theorem pushByte_spec {a : Alg} {s : State} (h : s.plen.toNat < blockBytes a) (b : Byte) :
    (s.plen.toNat + 1 = blockBytes a ∧
        (s.pushByte a b).h = compress a s.h (s.pending ++ [b]) ∧ (s.pushByte a b).plen = 0 ∧
        (s.pushByte a b).pending = []) ∨
      (s.plen.toNat + 1 < blockBytes a ∧
        (s.pushByte a b).h = s.h ∧ (s.pushByte a b).plen.toNat = s.plen.toNat + 1 ∧
        (s.pushByte a b).pending = s.pending ++ [b]) := by
  have h128 := plen_lt_128 h
  have hsucc := plen_succ h128
  have htake := writeBuf_take s.buf s.plen.toNat [b] (by simp; omega)
  simp only [List.length_singleton] at htake
  by_cases hB : s.plen.toNat + 1 = blockBytes a
  · left
    have hp : s.pushByte a b = { State.processBlock a (s.pending ++ [b])
        { s with buf := writeBuf s.buf s.plen.toNat [b], plen := s.plen + 1 } with plen := 0 } := by
      rw [State.pushByte]
      simp only [hsucc, hB, if_true, State.fullBuffer]
      rw [← hB, htake, State.pending]
    exact ⟨hB, by rw [hp]; rfl, by rw [hp], by rw [hp]; simp [State.pending]⟩
  · right
    have hp : s.pushByte a b
        = { s with buf := writeBuf s.buf s.plen.toNat [b], plen := s.plen + 1 } := by
      rw [State.pushByte]
      simp only [hsucc, hB, if_false]
    refine ⟨by omega, by rw [hp], by rw [hp]; exact hsucc, ?_⟩
    rw [hp]
    simp only [State.pending, hsucc]
    exact htake

/-- The registers the loop does not touch. -/
theorem pushByte_frame (a : Alg) (s : State) (b : Byte) :
    (s.pushByte a b).len = s.len ∧ (s.pushByte a b).phase = s.phase ∧
      (s.pushByte a b).alg = s.alg ∧ (s.pushByte a b).fcode = s.fcode ∧
      (s.pushByte a b).cp = s.cp ∧ (s.pushByte a b).resp = s.resp ∧
      (s.pushByte a b).input = s.input := by
  rw [State.pushByte]
  split <;> simp

theorem pushByte_plen_lt {a : Alg} {s : State} (h : s.plen.toNat < blockBytes a) (b : Byte) :
    (s.pushByte a b).plen.toNat < blockBytes a := by
  rcases pushByte_spec h b with ⟨-, -, h2, -⟩ | ⟨h1, -, h2, -⟩
  · rw [h2]
    exact blockBytes_pos a
  · rw [h2]
    exact h1

@[simp] theorem bufInput_nil (a : Alg) (s : State) : State.bufInput a [] s = s := rfl

theorem bufInput_cons (a : Alg) (b : Byte) (bs : List Byte) (s : State) :
    State.bufInput a (b :: bs) s = State.bufInput a bs (s.pushByte a b) := rfl

/-- The loop does not depend on where one call ends (R125). -/
theorem bufInput_append (a : Alg) (d e : List Byte) (s : State) :
    State.bufInput a (d ++ e) s = State.bufInput a e (State.bufInput a d s) := List.foldl_append

theorem bufInput_frame (a : Alg) (data : List Byte) (s : State) :
    (State.bufInput a data s).len = s.len ∧ (State.bufInput a data s).phase = s.phase ∧
      (State.bufInput a data s).alg = s.alg ∧ (State.bufInput a data s).fcode = s.fcode ∧
      (State.bufInput a data s).cp = s.cp ∧ (State.bufInput a data s).resp = s.resp ∧
      (State.bufInput a data s).input = s.input := by
  induction data generalizing s with
  | nil => simp
  | cons b bs ih =>
    obtain ⟨h1, h2, h3, h4, h5, h6, h7⟩ := ih (s.pushByte a b)
    obtain ⟨k1, k2, k3, k4, k5, k6, k7⟩ := pushByte_frame a s b
    rw [bufInput_cons]
    exact ⟨h1.trans k1, h2.trans k2, h3.trans k3, h4.trans k4, h5.trans k5, h6.trans k6, h7.trans k7⟩

/-- `BufInput` compresses the full blocks of the pending bytes followed by the data, in order, and keeps
the bytes left over (R121, R122). -/
theorem bufInput_spec {a : Alg} {s : State} (h : s.plen.toNat < blockBytes a) (data : List Byte) :
    (State.bufInput a data s).h = hashBlocks a s.h (s.pending ++ data) ∧
      (State.bufInput a data s).pending = leftOver a (s.pending ++ data) ∧
      (State.bufInput a data s).plen.toNat = (s.plen.toNat + data.length) % blockBytes a := by
  induction data generalizing s with
  | nil =>
    have hl := pending_length (Nat.le_of_lt (plen_lt_128 h))
    rw [List.append_nil, hashBlocks_of_lt (by omega), leftOver_of_lt (by omega), bufInput_nil]
    exact ⟨rfl, rfl, by rw [List.length_nil, Nat.add_zero, Nat.mod_eq_of_lt h]⟩
  | cons b bs ih =>
    have hl := pending_length (Nat.le_of_lt (plen_lt_128 h))
    obtain ⟨i1, i2, i3⟩ := ih (pushByte_plen_lt h b)
    rw [bufInput_cons, i1, i2, i3, List.append_cons]
    rcases pushByte_spec h b with ⟨hB, p1, p2, p3⟩ | ⟨hB, p1, p2, p3⟩
    · have hblk : (s.pending ++ [b]).length = blockBytes a := by simp [hl, hB]
      rw [p1, p2, p3, List.nil_append, hashBlocks_append hblk, leftOver_append hblk]
      refine ⟨rfl, rfl, ?_⟩
      rw [List.length_cons, show s.plen.toNat + (bs.length + 1) = blockBytes a + bs.length by omega,
        Nat.add_mod_left]
      simp
    · rw [p1, p2, p3]
      refine ⟨rfl, rfl, ?_⟩
      rw [List.length_cons]
      congr 1
      omega

theorem bufInput_plen_lt {a : Alg} {s : State} (h : s.plen.toNat < blockBytes a)
    (data : List Byte) : (State.bufInput a data s).plen.toNat < blockBytes a := by
  rw [(bufInput_spec h data).2.2]
  exact Nat.mod_lt _ (blockBytes_pos a)

theorem pushByte_buf_getElem (a : Alg) (s : State) (b : Byte) (j : Nat) (hj : j < 128)
    (h : j ≠ s.plen.toNat) : (s.pushByte a b).buf[j] = s.buf[j] := by
  have hw := writeBuf_getElem_of_out s.buf s.plen.toNat [b] j hj (by simp; omega)
  rw [State.pushByte]
  split <;> exact hw

/-- The bytes of BUF at the positions no data byte goes to stay. -/
theorem bufInput_buf_getElem {a : Alg} {s : State} (h : s.plen.toNat < blockBytes a)
    (data : List Byte) (j : Nat) (hj : j < 128)
    (hout : ∀ k, k < data.length → (s.plen.toNat + k) % blockBytes a ≠ j) :
    (State.bufInput a data s).buf[j] = s.buf[j] := by
  induction data generalizing s with
  | nil => rfl
  | cons b bs ih =>
    have h0 := hout 0 (by simp)
    rw [Nat.add_zero, Nat.mod_eq_of_lt h] at h0
    rw [bufInput_cons, ih (pushByte_plen_lt h b), pushByte_buf_getElem a s b j hj (Ne.symm h0)]
    intro k hk
    have hk1 := hout (k + 1) (by simp; omega)
    rcases pushByte_spec h b with ⟨hB, -, p2, -⟩ | ⟨hB, -, p2, -⟩
    · rw [p2]
      rw [show s.plen.toNat + (k + 1) = blockBytes a + k by omega, Nat.add_mod_left] at hk1
      simpa using hk1
    · rw [p2, show s.plen.toNat + 1 + k = s.plen.toNat + (k + 1) by omega]
      exact hk1

/-! ### Padding -/

theorem lengthField_length (a : Alg) (len : BitVec 64) :
    (lengthField a len).length = lengthBytes a := by cases a <;> simp [lengthField, byteOrder, orderBytes]

theorem ofNat8_toNat {n : Nat} (h : n ≤ 128) : (BitVec.ofNat 8 n).toNat = n := by
  rw [BitVec.toNat_ofNat]
  omega

theorem padMark_spec {s : State} (h : s.plen.toNat < 128) :
    s.padMark.plen.toNat = s.plen.toNat + 1 ∧ s.padMark.pending = s.pending ++ [0x80] := by
  have htake := writeBuf_take s.buf s.plen.toNat [0x80] (by simp; omega)
  have hsucc := plen_succ h
  refine ⟨hsucc, ?_⟩
  simp only [State.pending, padMark_plen, padMark_buf, hsucc]
  exact htake

/-- Zeros from PLEN up to `hi`. -/
theorem zeroFill_take {s : State} {hi : Nat} (h : s.plen.toNat ≤ hi) (h128 : hi ≤ 128) :
    (s.zeroFill hi).buf.toList.take hi = s.pending ++ zeros (hi - s.plen.toNat) := by
  have htake := writeBuf_take s.buf s.plen.toNat (zeros (hi - s.plen.toNat)) (by simp; omega)
  rw [zeros_length, show s.plen.toNat + (hi - s.plen.toNat) = hi by omega] at htake
  exact htake

theorem zeroFill_pending {s : State} {hi : Nat} (h : s.plen.toNat ≤ hi) (h128 : hi ≤ 128) (n : BitVec 8)
    (hn : n.toNat = hi) :
    State.pending { s.zeroFill hi with plen := n } = s.pending ++ zeros (hi - s.plen.toNat) := by
  rw [State.pending]
  simp only [hn]
  exact zeroFill_take h h128

/-- The flush of the padding: taken exactly when the length field does not fit (R126, R128). -/
theorem padFlush_spec {a : Alg} {s : State} (h : s.plen.toNat ≤ blockBytes a) :
    (s.plen.toNat + lengthBytes a ≤ blockBytes a ∧ s.padFlush a = s) ∨
      (blockBytes a < s.plen.toNat + lengthBytes a ∧
        s.padFlush a = { State.processBlock a (s.pending ++ zeros (blockBytes a - s.plen.toNat))
          (s.zeroFill (blockBytes a)) with plen := 0 }) := by
  have hL := lengthBytes_lt a
  rw [State.padFlush]
  by_cases hc : blockBytes a - lengthBytes a < s.plen.toNat
  · right
    refine ⟨by omega, ?_⟩
    rw [if_pos hc]
    simp only [State.fullBuffer]
    rw [zeroFill_take h (blockBytes_le a)]
  · left
    exact ⟨by omega, if_neg hc⟩

/-- `StandardPadding` (R126, R127). -/
theorem standardPadding_spec {a : Alg} {s : State} (h : s.plen.toNat < blockBytes a) :
    (s.standardPadding a).plen.toNat = blockBytes a - lengthBytes a ∧
      ((s.plen.toNat + 1 + lengthBytes a ≤ blockBytes a ∧
          (s.standardPadding a).h = s.h ∧
          (s.standardPadding a).pending
            = s.pending ++ 0x80 :: zeros (blockBytes a - lengthBytes a - (s.plen.toNat + 1))) ∨
        (blockBytes a < s.plen.toNat + 1 + lengthBytes a ∧
          (s.standardPadding a).h
            = compress a s.h (s.pending ++ 0x80 :: zeros (blockBytes a - (s.plen.toNat + 1))) ∧
          (s.standardPadding a).pending = zeros (blockBytes a - lengthBytes a))) := by
  have hB := blockBytes_le a
  have hL := lengthBytes_lt a
  have hn : (BitVec.ofNat 8 (blockBytes a - lengthBytes a)).toNat = blockBytes a - lengthBytes a :=
    ofNat8_toNat (by omega)
  obtain ⟨m1, m2⟩ := padMark_spec (plen_lt_128 h)
  refine ⟨hn, ?_⟩
  rcases padFlush_spec (a := a) (s := s.padMark) (by omega) with ⟨c, e⟩ | ⟨c, e⟩
  · left
    refine ⟨by omega, ?_, ?_⟩
    · simp only [State.standardPadding, e, zeroFill_h, padMark_h]
    · rw [State.standardPadding, e, zeroFill_pending (by omega) (by omega) _ hn, m1, m2]
      simp
  · right
    refine ⟨by omega, ?_, ?_⟩
    · simp only [State.standardPadding, e, zeroFill_h, processBlock_h, padMark_h, m1, m2]
      simp
    · rw [State.standardPadding, zeroFill_pending (by rw [e]; exact Nat.zero_le _) (by omega) _ hn, e]
      simp [State.pending]

theorem standardPadding_frame (a : Alg) (s : State) :
    (s.standardPadding a).len = s.len ∧ (s.standardPadding a).phase = s.phase ∧
      (s.standardPadding a).alg = s.alg ∧ (s.standardPadding a).fcode = s.fcode ∧
      (s.standardPadding a).cp = s.cp ∧ (s.standardPadding a).resp = s.resp ∧
      (s.standardPadding a).input = s.input := by
  have h : ∀ u : State, (u.padFlush a).len = u.len ∧ (u.padFlush a).phase = u.phase ∧
      (u.padFlush a).alg = u.alg ∧ (u.padFlush a).fcode = u.fcode ∧ (u.padFlush a).cp = u.cp ∧
      (u.padFlush a).resp = u.resp ∧ (u.padFlush a).input = u.input := by
    intro u
    rw [State.padFlush]
    split <;> simp
  have h2 := h s.padMark
  simpa [State.standardPadding] using h2

/-- The length field fills the buffer (R130, R131). -/
theorem writeLength_fullBuffer {a : Alg} {s : State}
    (h : s.plen.toNat = blockBytes a - lengthBytes a) :
    (s.writeLength a).fullBuffer a = s.pending ++ lengthField a s.len := by
  have hB := blockBytes_le a
  have hL := lengthBytes_lt a
  have htake := writeBuf_take s.buf (blockBytes a - lengthBytes a) (lengthField a s.len)
    (by rw [lengthField_length]; omega)
  rw [lengthField_length, show blockBytes a - lengthBytes a + lengthBytes a = blockBytes a by omega]
    at htake
  rw [State.fullBuffer, State.pending, h]
  exact htake

/-- The bytes FINAL puts behind the pending ones (R133). -/
def padTail (a : Alg) (z : Nat) (len : BitVec 64) : List Byte :=
  0x80 :: (zeros z ++ lengthField a len)

/-- `Finish()` folds the state over the blocks of the pending bytes, 0x80, the least number of zeros and
the length field; there are one or two (R126, R128, R132). -/
theorem finish_spec {a : Alg} {s : State} (h : s.plen.toNat < blockBytes a) {z : Nat}
    (hz : LeastPadding a s.plen.toNat z) :
    (s.finish a).h = hashBlocks a s.h (s.pending ++ padTail a z s.len) ∧
      (s.finish a).plen = 0 ∧
      (s.pending ++ padTail a z s.len).length
        = (if s.plen.toNat + 1 + lengthBytes a ≤ blockBytes a then 1 else 2) * blockBytes a ∧
      (s.finish a).fullBuffer a
        = (s.pending ++ padTail a z s.len).drop
            (if s.plen.toNat + 1 + lengthBytes a ≤ blockBytes a then 0 else blockBytes a) := by
  have hB := blockBytes_le a
  have hL := lengthBytes_lt a
  have hp := pending_length (Nat.le_of_lt (plen_lt_128 h))
  obtain ⟨sp, sc⟩ := standardPadding_spec h
  have hlen := (standardPadding_frame a s).1
  have hfull := writeLength_fullBuffer sp
  rw [hlen] at hfull
  have hfh : (s.finish a).h
      = compress a (s.standardPadding a).h ((s.standardPadding a).pending ++ lengthField a s.len) := by
    rw [← hfull]
    rfl
  have hfb : (s.finish a).fullBuffer a = (s.standardPadding a).pending ++ lengthField a s.len := by
    rw [← hfull]
    rfl
  have hfl := lengthField_length a s.len
  have htail : ∀ z, (s.pending ++ padTail a z s.len).length
      = s.plen.toNat + 1 + z + lengthBytes a := by
    intro z
    simp [padTail, hp, hfl]
    omega
  rw [leastPadding_iff] at hz
  rcases sc with ⟨c, sh, spd⟩ | ⟨c, sh, spd⟩
  · have hz2 : z = blockBytes a - lengthBytes a - (s.plen.toNat + 1) := by
      have hle : s.plen.toNat + 1 + lengthBytes a ≤ blockBytes a := c
      rw [hz]
      rcases Nat.lt_or_eq_of_le hle with hlt | heq
      · rw [Nat.mod_eq_of_lt hlt, Nat.mod_eq_of_lt (by omega)]
        omega
      · rw [heq, Nat.mod_self, Nat.sub_zero, Nat.mod_self]
        omega
    have hmsg : s.pending ++ padTail a z s.len
        = (s.standardPadding a).pending ++ lengthField a s.len := by
      rw [spd, hz2, padTail]
      simp
    have hblk : (s.pending ++ padTail a z s.len).length = blockBytes a := by
      rw [htail]
      omega
    refine ⟨?_, rfl, by rw [hblk, if_pos c, Nat.one_mul], by rw [if_pos c, List.drop_zero, hfb, hmsg]⟩
    rw [hfh, sh, ← hmsg, hashBlocks_block hblk]
  · have hz2 : z = (blockBytes a - (s.plen.toNat + 1)) + (blockBytes a - lengthBytes a) := by
      have h1 : (s.plen.toNat + 1 + lengthBytes a) % blockBytes a
          = s.plen.toNat + 1 + lengthBytes a - blockBytes a := by
        rw [Nat.mod_eq_sub_mod (by omega), Nat.mod_eq_of_lt (by omega)]
      rw [hz, h1, Nat.mod_eq_of_lt (by omega)]
      omega
    have hmsg : s.pending ++ padTail a z s.len
        = (s.pending ++ 0x80 :: zeros (blockBytes a - (s.plen.toNat + 1)))
          ++ ((s.standardPadding a).pending ++ lengthField a s.len) := by
      rw [spd, hz2, padTail, zeros_add]
      simp
    have hb1 : (s.pending ++ 0x80 :: zeros (blockBytes a - (s.plen.toNat + 1))).length
        = blockBytes a := by
      simp [hp]
      omega
    have hb2 : ((s.standardPadding a).pending ++ lengthField a s.len).length = blockBytes a := by
      rw [spd]
      simp [hfl]
      omega
    refine ⟨?_, rfl, ?_, ?_⟩
    · rw [hfh, sh, hmsg, hashBlocks_append hb1, hashBlocks_block hb2]
    · rw [htail, if_neg (by omega)]
      omega
    · rw [if_neg (by omega), hfb, hmsg, List.drop_left' hb1]

theorem finish_frame (a : Alg) (s : State) :
    (s.finish a).len = s.len ∧ (s.finish a).phase = s.phase ∧ (s.finish a).alg = s.alg ∧
      (s.finish a).fcode = s.fcode ∧ (s.finish a).cp = s.cp ∧ (s.finish a).resp = s.resp ∧
      (s.finish a).input = s.input := by
  have h := standardPadding_frame a s
  simpa [State.finish] using h

/-- FINAL writes no byte of BUF at or above `B(ALG)`. -/
theorem finish_buf_getElem {a : Alg} {s : State} (h : s.plen.toNat < blockBytes a) (j : Nat)
    (hj : j < 128) (hB : blockBytes a ≤ j) : (s.finish a).buf[j] = s.buf[j] := by
  have hL := lengthBytes_lt a
  have hfl := lengthField_length a
  obtain ⟨m1, -⟩ := padMark_spec (plen_lt_128 h)
  have e1 : s.padMark.buf[j] = s.buf[j] :=
    writeBuf_getElem_of_out _ _ _ j hj (by simp; omega)
  have e2 : ∀ u : State, u.plen.toNat ≤ blockBytes a → (u.padFlush a).buf[j] = u.buf[j] ∧
      (u.padFlush a).plen.toNat ≤ blockBytes a := by
    intro u hu
    rcases padFlush_spec hu with ⟨-, e⟩ | ⟨-, e⟩
    · rw [e]
      exact ⟨rfl, hu⟩
    · rw [e]
      exact ⟨writeBuf_getElem_of_out _ _ _ j hj (by simp; omega), Nat.zero_le _⟩
  have e3 := e2 s.padMark (by omega)
  have e4 : (s.standardPadding a).buf[j] = (s.padMark.padFlush a).buf[j] :=
    writeBuf_getElem_of_out _ _ _ j hj (by simp; omega)
  have e5 : (s.finish a).buf[j] = (s.standardPadding a).buf[j] :=
    writeBuf_getElem_of_out _ _ _ j hj (by rw [hfl]; omega)
  rw [e5, e4, e3.1, e1]

end Sys2Proof.Machine
end

