-- ==== Sys2Proof/Laws/Cores.lean ====
section
/-! SUPPORT. Laws of the compression cores: the rotations, the message schedule as a recurrence, and the
rounds as a sequence of working sets. -/

namespace Sys2Proof.Machine

/-! ### Word operators (00_scope.md R11) -/

theorem rotr_eq_rotateRight {w n : Nat} (x : BitVec w) (h : n < w) : rotr x n = x.rotateRight n := by
  rw [rotr, shr, BitVec.rotateRight, BitVec.rotateRightAux, Nat.mod_eq_of_lt h]

theorem rotl_eq_rotateLeft {w n : Nat} (x : BitVec w) (h : n < w) : rotl x n = x.rotateLeft n := by
  rw [rotl, rotr, shr, BitVec.rotateLeft, BitVec.rotateLeftAux, Nat.mod_eq_of_lt h,
    Nat.sub_sub_self (Nat.le_of_lt h), BitVec.or_comm]

/-! ### Folding over a list by index -/

/-- A fold is the last term of the sequence that takes the list's elements one by one. -/
theorem foldl_eq_seq {α β : Type} (f : β → α → β) (l : List α) (S : Nat → β)
    (h : ∀ t (ht : t < l.length), S (t + 1) = f (S t) l[t]) : l.foldl f (S 0) = S l.length := by
  induction l generalizing S with
  | nil => rfl
  | cons x l ih =>
    have h0 := h 0 (by simp)
    have h1 : ∀ t (ht : t < l.length), S (t + 1 + 1) = f (S (t + 1)) l[t] := by
      intro t ht
      exact h (t + 1) (by simpa using ht)
    have h2 := ih (fun t => S (t + 1)) h1
    rw [List.foldl_cons, List.length_cons, ← h2]
    simp only [Nat.zero_add] at h0 ⊢
    rw [h0]
    rfl

/-! ### Message words -/

@[simp] theorem blockWords_length (o : ByteOrder) (w : Nat) (blk : List Byte) :
    (blockWords o w blk).length = 16 := by simp [blockWords]

theorem blockWords_getD (o : ByteOrder) (w : Nat) (blk : List Byte) (i : Nat) (h : i < 16) :
    (blockWords o w blk).getD i 0
      = BitVec.ofNat w (orderValue o ((blk.drop (w / 8 * i)).take (w / 8))) := by
  simp [blockWords, List.getD, h]

/-! ### The message schedule (R157, R207) -/

/-- The words `W 0` to `W (t-1)`, newest first. -/
def newestFirst {α : Type} (W : Nat → α) (t : Nat) : List α := ((List.range t).map W).reverse

theorem newestFirst_succ {α : Type} (W : Nat → α) (t : Nat) :
    newestFirst W (t + 1) = W t :: newestFirst W t := by
  simp [newestFirst, List.range_succ]

theorem newestFirst_getD {w : Nat} (W : Nat → BitVec w) (t i : Nat) (h : i < t) :
    (newestFirst W t).getD i 0 = W (t - 1 - i) := by
  simp [newestFirst, List.getD, h]

theorem extendSchedule_eq {w : Nat} (c : Sha2 w) (W : Nat → BitVec w) (n t : Nat) (ht : 16 ≤ t)
    (hrec : ∀ u, t ≤ u → u < t + n →
      W u = W (u - 16) + c.smallSigma0 (W (u - 15)) + W (u - 7) + c.smallSigma1 (W (u - 2))) :
    extendSchedule c n (newestFirst W t) = newestFirst W (t + n) := by
  induction n generalizing t with
  | zero => rfl
  | succ n ih =>
    have hw : scheduleWord c (newestFirst W t) = W t := by
      rw [scheduleWord, newestFirst_getD _ _ _ (by omega), newestFirst_getD _ _ _ (by omega),
        newestFirst_getD _ _ _ (by omega), newestFirst_getD _ _ _ (by omega),
        hrec t (Nat.le_refl _) (by omega)]
      rfl
    rw [extendSchedule, hw, ← newestFirst_succ, ih (t + 1) (by omega)
      (fun u h1 h2 => hrec u (by omega) (by omega))]
    congr 1
    omega

/-- The schedule is the sequence that starts with the block's words and obeys the recurrence. -/
theorem schedule_eq {w : Nat} (c : Sha2 w) (m : List (BitVec w)) (W : Nat → BitVec w)
    (hm : m.length = 16) (hk : 16 ≤ c.k.length) (h0 : ∀ i, i < 16 → W i = m.getD i 0)
    (hrec : ∀ u, 16 ≤ u → u < c.k.length →
      W u = W (u - 16) + c.smallSigma0 (W (u - 15)) + W (u - 7) + c.smallSigma1 (W (u - 2))) :
    schedule c m = (List.range c.k.length).map W := by
  have hfirst : m.reverse = newestFirst W 16 := by
    rw [newestFirst]
    congr 1
    apply List.ext_getElem (by simp [hm])
    intro i h1 h2
    have h3 := h0 i (by omega)
    simp [List.getD, h1] at h3
    simp [h3]
  rw [schedule, hfirst, extendSchedule_eq c W _ 16 (Nat.le_refl _) (fun u h1 h2 => hrec u h1 (by omega)),
    show 16 + (c.k.length - 16) = c.k.length by omega, newestFirst, List.reverse_reverse]

/-- The rounds are the sequence of working sets that takes one round constant and one schedule word each. -/
theorem sha2Rounds_eq {w : Nat} (c : Sha2 w) (W : Nat → BitVec w) (S : Nat → Working w)
    (hS : ∀ t (ht : t < c.k.length), S (t + 1) = sha2Round c (S t) (c.k[t], W t)) :
    sha2Rounds c ((List.range c.k.length).map W) (S 0) = S c.k.length := by
  have hlen : (c.k.zip ((List.range c.k.length).map W)).length = c.k.length := by simp
  have h := foldl_eq_seq (sha2Round c) (c.k.zip ((List.range c.k.length).map W)) S (by
    intro t ht
    have ht2 : t < c.k.length := by omega
    rw [hS t ht2]
    simp)
  rw [hlen] at h
  exact h

/-- A SHA-2 compression as a schedule sequence and a sequence of working sets (R160, R210). -/
theorem sha2Compress_eq {w : Nat} (c : Sha2 w) (hk : 16 ≤ c.k.length) (hin : Working w)
    (blk : List Byte) (W : Nat → BitVec w) (S : Nat → Working w)
    (h0 : ∀ i, i < 16 → W i = BitVec.ofNat w (be ((blk.drop (w / 8 * i)).take (w / 8))))
    (hrec : ∀ u, 16 ≤ u → u < c.k.length →
      W u = W (u - 16) + c.smallSigma0 (W (u - 15)) + W (u - 7) + c.smallSigma1 (W (u - 2)))
    (hS0 : S 0 = hin)
    (hS : ∀ t (ht : t < c.k.length), S (t + 1) = sha2Round c (S t) (c.k[t], W t)) :
    sha2Compress c hin blk = hin.add (S c.k.length) := by
  rw [sha2Compress, schedule_eq c _ W (by simp) hk
    (fun i hi => by rw [h0 i hi, blockWords_getD _ _ _ _ hi]; rfl) hrec, ← hS0, sha2Rounds_eq c W S hS]

/-! ### The paths of RIPEMD-160 (R252, R253) -/

/-- The rounds of a path as one list: each round's phase with its word selection and rotation. -/
def pathSteps (phases : List PathPhase) : List (PathPhase × (Nat × Nat)) :=
  phases.flatMap fun p => (p.sel.zip p.rot).map fun sr => (p, sr)

theorem pathRounds_eq_foldl (x : List Word32) (phases : List PathPhase) (s : Path) :
    pathRounds x phases s = (pathSteps phases).foldl (fun s r => pathRound x r.1 s r.2) s := by
  induction phases generalizing s with
  | nil => rfl
  | cons p phases ih =>
    have hcons : pathSteps (p :: phases)
        = ((p.sel.zip p.rot).map fun sr => (p, sr)) ++ pathSteps phases := rfl
    rw [pathRounds, List.foldl_cons, ← pathRounds, ih, hcons, List.foldl_append, pathPhaseRounds,
      List.foldl_map]

theorem pathRounds_eq (x : List Word32) (phases : List PathPhase) (S : Nat → Path)
    (h : ∀ j (hj : j < (pathSteps phases).length),
      S (j + 1) = pathRound x (pathSteps phases)[j].1 (S j) (pathSteps phases)[j].2) :
    pathRounds x phases (S 0) = S (pathSteps phases).length := by
  rw [pathRounds_eq_foldl]
  exact foldl_eq_seq _ _ S h

/-! ### What a compression leaves in the unused bits (10_state.md R31) -/

theorem zext64_lt (x : Word32) : (zext64 x).toNat < 2 ^ 32 := by
  have := x.isLt
  rw [zext64, BitVec.toNat_setWidth]
  omega

theorem storeWorking32_lt (x : Working 32) (i : Fin 8) : (storeWorking32 x)[i].toNat < 2 ^ 32 := by
  fin_cases i <;> exact zext64_lt _

theorem storePath_lt (x : Path) (h : Vector Word64 8) (hh : ∀ i : Fin 8, h[i].toNat < 2 ^ 32)
    (i : Fin 8) : (storePath x h)[i].toNat < 2 ^ 32 := by
  fin_cases i
  · exact zext64_lt _
  · exact zext64_lt _
  · exact zext64_lt _
  · exact zext64_lt _
  · exact zext64_lt _
  · exact hh 5
  · exact hh 6
  · exact hh 7

/-- RIPEMD-160 writes no word from `H[5]` on (43_ripemd160.md R258). -/
theorem storePath_high (x : Path) (h : Vector Word64 8) (i : Fin 8) (hi : 5 ≤ i.val) :
    (storePath x h)[i] = h[i] := by
  fin_cases i <;> simp at hi <;> rfl

/-! ### Serialization (44_digest_facade.md R302) -/

theorem orderBytes_length (o : ByteOrder) (x k : Nat) : (orderBytes o x k).length = k := by
  cases o <;> simp [orderBytes]

theorem serialize_length (a : Alg) (h : Vector Word64 8) :
    (serialize a h).length = stateWords a * wordBytes a := by
  have hk : ∀ (l : List Word64), (l.flatMap fun x => orderBytes (byteOrder a) x.toNat (wordBytes a)).length
      = l.length * wordBytes a := by
    intro l
    induction l with
    | nil => simp
    | cons x l ih =>
      rw [List.flatMap_cons, List.length_append, ih, orderBytes_length, List.length_cons, Nat.succ_mul]
      omega
  rw [serialize, hk, List.length_take]
  cases a <;> simp [stateWords]

theorem digest_length (a : Alg) (h : Vector Word64 8) : (digest a h).length = outBytes a := by
  rw [digest, List.length_take, serialize_length]
  cases a <;> rfl

end Sys2Proof.Machine
end

