-- ==== Sys2Proof/Laws/Invariant.lean ====
section
/-! SUPPORT. What each operation does to the invariant of 10_state.md R43: one lemma for each outcome of
`exec_eq_next` and `step_cases`. -/

namespace Sys2Proof.Machine

/-! ### The unused bits of H (R31) -/

theorem initialValue_unusedBitsZero (a : Alg) : UnusedBitsZero a (initialValue a) := by
  cases a <;> exact ⟨by decide, by decide⟩

/-- A compression keeps the unused bits 0 (41_sha2_32.md R161, 43_ripemd160.md R258). -/
theorem compress_unusedBitsZero {a : Alg} {h : Vector Word64 8} (hz : UnusedBitsZero a h)
    (blk : List Byte) : UnusedBitsZero a (compress a h blk) := by
  have noWords : stateWords a = 8 → ∀ i : Fin 8, stateWords a ≤ i.val → (compress a h blk)[i] = 0 := by
    intro h8 i hi
    have := i.isLt
    omega
  cases a with
  | sha224 => exact ⟨fun _ i => storeWorking32_lt _ i, noWords rfl⟩
  | sha256 => exact ⟨fun _ i => storeWorking32_lt _ i, noWords rfl⟩
  | sha384 => exact ⟨fun h4 => absurd h4 (by decide), noWords rfl⟩
  | sha512 => exact ⟨fun h4 => absurd h4 (by decide), noWords rfl⟩
  | sha512t224 => exact ⟨fun h4 => absurd h4 (by decide), noWords rfl⟩
  | sha512t256 => exact ⟨fun h4 => absurd h4 (by decide), noWords rfl⟩
  | ripemd160 =>
    refine ⟨fun h4 i => storePath_lt _ h (hz.1 h4) i, fun i hi => ?_⟩
    rw [compress, storePath_high _ _ i hi]
    exact hz.2 i hi

theorem hashBlocks_unusedBitsZero {a : Alg} {h : Vector Word64 8} (hz : UnusedBitsZero a h)
    (bs : List Byte) : UnusedBitsZero a (hashBlocks a h bs) := by
  have key : ∀ (l : List (List Byte)) (h : Vector Word64 8), UnusedBitsZero a h →
      UnusedBitsZero a (l.foldl (compress a) h) := by
    intro l
    induction l with
    | nil => exact fun h hz => hz
    | cons b l ih => exact fun h hz => ih _ (compress_unusedBitsZero hz b)
  exact key _ h hz

/-! ### What the invariant gives -/

/-- The invariant speaks of no other registers. -/
theorem inv_congr {s t : State} (hi : s.Inv) (h1 : t.h = s.h) (h2 : t.plen = s.plen)
    (h3 : t.len = s.len) (h4 : t.phase = s.phase) (h5 : t.alg = s.alg) (h6 : t.fcode = s.fcode) :
    t.Inv := by
  obtain ⟨⟨p, hp, hq, ⟨i1, i2, i3, i4, i5, i6⟩⟩, j1, j2, j3⟩ := hi
  exact ⟨⟨p, hp, by rwa [h4], ⟨by rwa [h5, h2, h3], by rwa [h5], by rwa [h2, h3, h5, h1], by rwa [h2],
    by rwa [h5, h2], by rwa [h5, h2, h3]⟩⟩, by rwa [h4, h6], by rwa [h3], by rwa [h5, h1]⟩

theorem inv_alg_ne_none {s : State} (hi : s.Inv) (h : s.phase = .fresh ∨ s.phase = .updating) :
    s.alg ≠ none := by
  obtain ⟨⟨p, -, hq, hitems⟩, -, -, -⟩ := hi
  have hp : s.phase = p := hq (by rcases h with h | h <;> simp [h])
  exact hitems.hasAlg (by rcases h with h | h <;> simp [← hp, h])

theorem inv_plen_lt {s : State} (hi : s.Inv) {a : Alg} (h : s.alg = some a) :
    s.plen.toNat < blockBytes a := by
  obtain ⟨⟨p, -, -, hitems⟩, -, -, -⟩ := hi
  exact hitems.plenLt a h

theorem inv_plen_lt_128 {s : State} (hi : s.Inv) : s.plen.toNat < 128 := by
  cases ha : s.alg with
  | some a => exact plen_lt_128 (inv_plen_lt hi ha)
  | none =>
    obtain ⟨⟨p, hp, -, hitems⟩, -, -, -⟩ := hi
    have hidle : p = .idle := by
      cases p with
      | idle => rfl
      | faulted => exact absurd rfl hp
      | fresh => exact absurd ha (hitems.hasAlg (by simp))
      | updating => exact absurd ha (hitems.hasAlg (by simp))
      | finalized => exact absurd ha (hitems.hasAlg (by simp))
    rw [(hitems.idle hidle).2.1]
    decide

theorem inv_live_plen {s : State} (hi : s.Inv) {a : Alg} (h : s.Live a) :
    s.plen.toNat = s.len.toNat % blockBytes a := by
  obtain ⟨hp, ha⟩ := h
  obtain ⟨⟨p, -, hq, hitems⟩, -, -, -⟩ := hi
  have hp2 : s.phase = p := hq (by rcases hp with hp | hp <;> simp [hp])
  exact hitems.plenMod (hp2 ▸ hp) a ha

theorem inv_fcode_none {s : State} (hi : s.Inv) (h : s.phase ≠ .faulted) : s.fcode = none := by
  by_contra hne
  exact h (hi.fcode.mpr hne)

/-! ### One lemma for each outcome of a step -/

theorem pastCommand_inv {s : State} (hi : s.Inv) (f : Framed) : (s.pastCommand f).Inv :=
  inv_congr hi rfl rfl rfl rfl rfl rfl

theorem emit_inv {s : State} (hi : s.Inv) (bs : List Byte) : (s.emit bs).Inv :=
  inv_congr hi rfl rfl rfl rfl rfl rfl

theorem hostWrite_inv {s : State} (hi : s.Inv) (bs : List Byte) : (s.hostWrite bs).Inv :=
  inv_congr hi rfl rfl rfl rfl rfl rfl

/-- A fault keeps the registers, so the items hold "as they held just before" (R43). -/
theorem raiseFault_inv {s : State} (hi : s.Inv) (c : FaultCode) : (s.raiseFault c).Inv := by
  by_cases h : s.phase = .faulted
  · rwa [raiseFault_of_faulted h]
  · rw [raiseFault_of_ne h]
    obtain ⟨⟨p, hp, hq, ⟨i1, i2, i3, i4, i5, i6⟩⟩, j1, j2, j3⟩ := hi
    exact ⟨⟨p, hp, fun hf => absurd rfl hf, ⟨i1, i2, i3, i4, i5, i6⟩⟩, by simp, j2, j3⟩

theorem freshInstance_inv {s : State} (hi : s.Inv) (h : s.phase ≠ .faulted) (a : Alg) :
    (freshInstance a s).Inv := by
  have hf := inv_fcode_none hi h
  have hb := blockBytes_pos a
  refine ⟨⟨.fresh, by simp, fun _ => rfl, ?_⟩, ?_, ?_, ?_⟩
  · exact ⟨by simp, by simp [freshInstance],
      fun _ => ⟨rfl, rfl, by rintro b ⟨⟩; rfl⟩, by simp, by rintro b ⟨⟩; exact hb,
      by rintro - b ⟨⟩; simp [freshInstance]⟩
  · simp [freshInstance, hf]
  · simp [freshInstance]
  · rintro b ⟨⟩
    exact initialValue_unusedBitsZero a

theorem ne_faulted_of_live {a : Alg} {s : State} (h : s.Live a) : s.phase ≠ .faulted := by
  obtain ⟨h1 | h1, -⟩ := h <;> simp [h1]

theorem len_add_toNat {s : State} {n : Nat} (h : s.len.toNat + n < lengthLimit) :
    (s.len + BitVec.ofNat 64 n).toNat = s.len.toNat + n := by
  rw [lengthLimit] at h
  rw [BitVec.toNat_add, BitVec.toNat_ofNat]
  omega

/-- What UPDATE leaves in each register (R314). -/
theorem afterUpdate_spec {a : Alg} {s : State} (h : s.plen.toNat < blockBytes a) (data : List Byte) :
    (afterUpdate a data s).h = hashBlocks a s.h (s.pending ++ data) ∧
      (afterUpdate a data s).pending = leftOver a (s.pending ++ data) ∧
      (afterUpdate a data s).plen.toNat = (s.plen.toNat + data.length) % blockBytes a ∧
      (afterUpdate a data s).len = s.len + BitVec.ofNat 64 data.length ∧
      (afterUpdate a data s).phase = .updating ∧ (afterUpdate a data s).alg = s.alg ∧
      (afterUpdate a data s).fcode = s.fcode ∧ (afterUpdate a data s).cp = s.cp ∧
      (afterUpdate a data s).resp = s.resp ∧ (afterUpdate a data s).input = s.input := by
  obtain ⟨s1, s2, s3⟩ := bufInput_spec (a := a)
    (s := { s with len := s.len + BitVec.ofNat 64 data.length }) h data
  obtain ⟨f1, -, f3, f4, f5, f6, f7⟩ := bufInput_frame a data
    { s with len := s.len + BitVec.ofNat 64 data.length }
  exact ⟨s1, s2, s3, f1, rfl, f3, f4, f5, f6, f7⟩

theorem afterUpdate_inv {a : Alg} {s : State} (hi : s.Inv) (hl : s.Live a) (data : List Byte)
    (hn : s.len.toNat + data.length < lengthLimit) : (afterUpdate a data s).Inv := by
  have hp := inv_plen_lt hi hl.2
  have hm := inv_live_plen hi hl
  have hf := inv_fcode_none hi (ne_faulted_of_live hl)
  have hlen := len_add_toNat hn
  obtain ⟨e1, -, e3, e4, e5, e6, e7, -⟩ := afterUpdate_spec hp data
  have hplen : (afterUpdate a data s).plen.toNat
      = (afterUpdate a data s).len.toNat % blockBytes a := by
    rw [e3, e4, hlen, hm, Nat.mod_add_mod]
  rw [hl.2] at e6
  refine ⟨⟨.updating, by simp, fun _ => e5, ?_⟩, by simp [e5, e7, hf], ?_, ?_⟩
  · refine ⟨by simp, by simp [e6], by simp, by simp, ?_, ?_⟩
    · intro b hb
      rw [e6] at hb
      cases hb
      rw [e3]
      exact Nat.mod_lt _ (blockBytes_pos a)
    · intro _ b hb
      rw [e6] at hb
      cases hb
      exact hplen
  · rw [e4, hlen]
    rw [lengthLimit] at hn
    omega
  · intro b hb
    rw [e6] at hb
    cases hb
    rw [e1]
    exact hashBlocks_unusedBitsZero (hi.unused a hl.2) _

/-- The least number of padding zeros exists. -/
theorem exists_leastPadding (a : Alg) (m : Nat) : ∃ z, LeastPadding a m z :=
  ⟨_, (leastPadding_iff a m _).mpr rfl⟩

theorem afterFinal_inv {a : Alg} {s : State} (hi : s.Inv) (hl : s.Live a) : (afterFinal a s).Inv := by
  have hp := inv_plen_lt hi hl.2
  have hf := inv_fcode_none hi (ne_faulted_of_live hl)
  obtain ⟨z, hz⟩ := exists_leastPadding a s.plen.toNat
  obtain ⟨e1, e2, -, -⟩ := finish_spec hp hz
  obtain ⟨f1, -, f3, f4, -, -, -⟩ := finish_frame a s
  have ea : (afterFinal a s).alg = some a := f3.trans hl.2
  have ep : (afterFinal a s).plen = 0 := e2
  refine ⟨⟨.finalized, by simp, fun _ => rfl, ?_⟩, ?_, ?_, ?_⟩
  · refine ⟨by simp, by simp [ea], by simp, fun _ => ep, ?_, by simp⟩
    intro b hb
    rw [ep]
    exact blockBytes_pos b
  · simp [afterFinal, f4, hf]
  · have : (afterFinal a s).len = s.len := f1
    rw [this]
    exact hi.lenLe
  · intro b hb
    rw [ea] at hb
    cases hb
    have : (afterFinal a s).h = _ := e1
    rw [this]
    exact hashBlocks_unusedBitsZero (hi.unused a hl.2) _

theorem afterCompress_inv {a : Alg} {s : State} (hi : s.Inv) (hl : s.Live a) (data : List Byte) :
    (afterCompress a data s).Inv := by
  have hf := inv_fcode_none hi (ne_faulted_of_live hl)
  refine ⟨⟨.updating, by simp, fun _ => rfl, ?_⟩, ?_, hi.lenLe, ?_⟩
  · refine ⟨by simp, by simp [afterCompress, hl.2], by simp, by simp, ?_, ?_⟩
    · intro b hb
      exact inv_plen_lt hi hb
    · intro _ b hb
      exact inv_live_plen hi ⟨hl.1, hb⟩
  · simp [afterCompress, hf]
  · intro b hb
    have hb2 : b = a := by
      have : s.alg = some b := hb
      rw [hl.2] at this
      cases this
      rfl
    subst hb2
    exact compress_unusedBitsZero (hi.unused b hl.2) _

/-! ### Commands and the stream -/

/-- No command reads or moves `cp` or the stream: what they are carries through. -/
theorem exec_stream {i : Instr} {s t : State} (h : exec i s = .next t) :
    t.cp = s.cp ∧ t.input = s.input := by
  rcases exec_eq_next h with ⟨-, -, rfl⟩ | ⟨-, -, -, c, rfl⟩ | ⟨a, -, -, rfl⟩ | ⟨a, d, -, -, -, rfl⟩ |
    ⟨a, -, -, rfl⟩ | ⟨a, d, -, -, -, rfl⟩ | ⟨a, -, -, rfl⟩ | ⟨-, rfl⟩
  · exact ⟨rfl, rfl⟩
  · exact ⟨raiseFault_cp c s, raiseFault_input c s⟩
  · exact ⟨rfl, rfl⟩
  · obtain ⟨-, -, -, -, f5, -, f7⟩ := bufInput_frame a d
      { s with len := s.len + BitVec.ofNat 64 d.length }
    exact ⟨f5, f7⟩
  · obtain ⟨-, -, -, -, f5, -, f7⟩ := finish_frame a s
    exact ⟨f5, f7⟩
  · exact ⟨rfl, rfl⟩
  · exact ⟨rfl, rfl⟩
  · exact ⟨rfl, rfl⟩

/-- The buffer loop looks at no control register: changing the count and the phase commutes with it. -/
theorem bufInput_with (a : Alg) (data : List Byte) (s : State) (l : BitVec 64) (p : Phase) :
    State.bufInput a data { s with len := l, phase := p }
      = { State.bufInput a data s with len := l, phase := p } := by
  induction data generalizing s with
  | nil => rfl
  | cons b bs ih =>
    have hpush : State.pushByte a { s with len := l, phase := p } b
        = { State.pushByte a s b with len := l, phase := p } := by
      rw [State.pushByte, State.pushByte]
      split <;> rfl
    rw [bufInput_cons, bufInput_cons, hpush, ih]

/-- Two UPDATEs leave what one UPDATE of both payloads leaves (40_block_buffer.md R125). -/
theorem afterUpdate_append (a : Alg) (d e : List Byte) (s : State) :
    afterUpdate a e (afterUpdate a d s) = afterUpdate a (d ++ e) s := by
  have key : ∀ (d : List Byte) (s : State), afterUpdate a d s
      = { State.bufInput a d s with len := s.len + BitVec.ofNat 64 d.length, phase := .updating } := by
    intro d s
    rw [afterUpdate]
    have h := bufInput_with a d s (s.len + BitVec.ofNat 64 d.length) s.phase
    rw [show ({ s with len := s.len + BitVec.ofNat 64 d.length } : State)
      = { s with len := s.len + BitVec.ofNat 64 d.length, phase := s.phase } from rfl, h]
  rw [key, key, key]
  have h2 : State.bufInput a e { State.bufInput a d s with
      len := s.len + BitVec.ofNat 64 d.length, phase := .updating }
      = { State.bufInput a e (State.bufInput a d s) with
        len := s.len + BitVec.ofNat 64 d.length, phase := .updating } := bufInput_with _ _ _ _ _
  rw [h2, ← bufInput_append, List.length_append, BitVec.ofNat_add, BitVec.add_assoc]

/-- What UPDATE leaves is a live instance. -/
theorem afterUpdate_live {a : Alg} {s : State} (h : s.Live a) (d : List Byte) :
    (afterUpdate a d s).Live a := by
  obtain ⟨-, -, f3, -⟩ := bufInput_frame a d { s with len := s.len + BitVec.ofNat 64 d.length }
  exact ⟨.inr rfl, f3.trans h.2⟩

theorem afterUpdate_len (a : Alg) (d : List Byte) (s : State) :
    (afterUpdate a d s).len = s.len + BitVec.ofNat 64 d.length :=
  (bufInput_frame a d { s with len := s.len + BitVec.ofNat 64 d.length }).1

end Sys2Proof.Machine
end

