-- ==== Sys2Proof/Laws/PerInstr.lean ====
section
/-! SUPPORT. Facts about every command as syntax, one lemma per constructor. -/

namespace Sys2Proof.Laws

/-! ### EncodedLength: a command occupies four header bytes and its payload (30_encoding.md R96, 20_memory.md R73) -/

/-- A well-formed command's bytes are as many as its own header says. -/
def EncodedLength.Statement (i : Instr) : Prop :=
  i.WellFormed → (encode i).length = 4 + payloadLength (encodeHeader i)

theorem EncodedLength.of_payload (i : Instr) : EncodedLength.Statement i := by
  intro h
  rw [payloadLength_encodeHeader h, encode, List.length_append, headerBytes_length]

theorem EncodedLength.init (alg : Alg) : EncodedLength.Statement (.init alg) :=
  EncodedLength.of_payload _

theorem EncodedLength.update (data : List Byte) : EncodedLength.Statement (.update data) :=
  EncodedLength.of_payload _

theorem EncodedLength.final : EncodedLength.Statement .final := EncodedLength.of_payload _

theorem EncodedLength.compress (data : List Byte) : EncodedLength.Statement (.compress data) :=
  EncodedLength.of_payload _

theorem EncodedLength.readState : EncodedLength.Statement .readState := EncodedLength.of_payload _

theorem EncodedLength.status : EncodedLength.Statement .status := EncodedLength.of_payload _

end Sys2Proof.Laws
end

