-- ==== Sys2Proof/Laws/Runs.lean ====
section
/-! SUPPORT. Laws of the header as numbers, of runs and sequences of commands, and of two states side by
side: more bytes behind a command, and two states that differ only in what no command observes. -/

namespace Sys2Proof.Machine

/-! ### Headers as numbers -/

/-- The fields of a header from its four bytes (30_encoding.md R90). -/
theorem frontHeader_cons (op x y z : Byte) (more : List Byte) :
    headerOp (frontHeader (op :: x :: y :: z :: more)) = op ∧
    (headerOperand (frontHeader (op :: x :: y :: z :: more))).toNat
      = x.toNat * 65536 + y.toNat * 256 + z.toNat := by
  have e : be ((op :: x :: y :: z :: more).take 4)
      = op.toNat * 16777216 + (x.toNat * 65536 + y.toNat * 256 + z.toNat) := by
    simp [be]
    ring
  have ho := op.isLt
  have hx := x.isLt
  have hy := y.isLt
  have hz := z.isLt
  constructor
  · apply BitVec.eq_of_toNat_eq
    rw [headerOp, frontHeader, e, BitVec.extractLsb_toNat, BitVec.toNat_ofNat,
      Nat.shiftRight_eq_div_pow]
    omega
  · rw [headerOperand, frontHeader, e, BitVec.extractLsb_toNat, BitVec.toNat_ofNat,
      Nat.shiftRight_eq_div_pow]
    omega

/-- R96 in numbers. -/
theorem payloadLength_eq (hdr : Word32) : payloadLength hdr =
    if (hdr.extractLsb 31 24).toNat = 2 ∨ (hdr.extractLsb 31 24).toNat = 4
      then (hdr.extractLsb 23 0).toNat else 0 := by
  have h : ∀ n : Nat, n < 256 →
      (headerOp hdr = BitVec.ofNat 8 n ↔ (hdr.extractLsb 31 24).toNat = n) := by
    intro n hn
    rw [← BitVec.toNat_inj, BitVec.toNat_ofNat, Nat.mod_eq_of_lt hn]; rfl
  rw [payloadLength]
  have h2 := h 2 (by omega)
  have h4 := h 4 (by omega)
  simp only [show (0x02 : BitVec 8) = BitVec.ofNat 8 2 from rfl,
    show (0x04 : BitVec 8) = BitVec.ofNat 8 4 from rfl, h2, h4]
  rfl

/-! ### Bytes of a word -/

theorem toLE_mod (x k : Nat) : toLE (x % 256 ^ k) k = toLE x k := by
  rw [← toLE_le (toLE x k), le_toLE, toLE_length]

theorem toBE_mod (x k : Nat) : toBE (x % 256 ^ k) k = toBE x k := by
  rw [toBE, toLE_mod]; rfl

/-- The first words of the state, serialized one by one. -/
theorem flatMap_range_eq (h : Vector Word64 8) (n : Nat) (hn : n ≤ 8) (g : Word64 → List Byte)
    (w : Nat → List Byte) (hw : ∀ i (hi : i < 8), w i = g h[i]) : (h.toList.take n).flatMap g = (List.range n).flatMap w := by
  have : h.toList.take n = (List.range n).map fun i => h.toList.getD i 0 := by
    apply List.ext_getElem
    · simp; omega
    · intro i h1 h2
      simp at h1 h2 ⊢
      have : i < 8 := by omega
      simp [this]
  rw [this, List.flatMap_map]
  apply List.flatMap_congr
  intro i hi
  simp at hi
  have h8 : i < 8 := by omega
  rw [hw i h8]
  simp [h8]

/-! ### The status word (10_state.md R39) -/

/-- Each bit of the status word. -/
theorem statusWord_getLsbD (s : State) (i : Nat) : s.statusWord.getLsbD i =
    ((decide (i < 32) && (phaseCode s.phase).getLsbD i) ||
    (decide (i < 32) && !decide (i < 4) && (algCode s.alg).getLsbD (i - 4)) ||
    (decide (i < 32) && !decide (i < 8) && s.plen.getLsbD (i - 8)) ||
    (decide (i < 32) && !decide (i < 16) && (fcodeValue s.fcode).getLsbD (i - 16))) := by
  simp [State.statusWord, BitVec.getLsbD_or, BitVec.getLsbD_shiftLeft, BitVec.getLsbD_setWidth]
  by_cases h : i < 32
  · have h2 : i - 4 < 32 := by omega
    have h3 : i - 8 < 32 := by omega
    have h4 : i - 16 < 32 := by omega
    simp [h, h2, h3, h4]
  · simp [h]

/-! ### Runs -/

theorem run_succ {k : Nat} {s t : State} (h : step s = .next t) :
    Sys2Proof.core.run (k + 1) s = Sys2Proof.core.run k t := by
  have h2 : Sys2Proof.core.step s = .next t := h
  simp only [Host.Core.run]
  rw [h2]

/-- A run in two parts. -/
theorem run_add (j k : Nat) (s t : State) (h : Sys2Proof.core.run j s = .next t) :
    Sys2Proof.core.run (j + k) s = Sys2Proof.core.run k t := by
  induction j generalizing s with
  | zero => cases h; rw [Nat.zero_add]
  | succ j ih =>
    cases hs : step s with
    | next u =>
      rw [Nat.succ_add, run_succ hs]
      rw [run_succ hs] at h
      exact ih u h
    | fault r =>
      have : Sys2Proof.core.step s = .fault r := hs
      simp only [Host.Core.run, this] at h; cases h
    | refused r =>
      have : Sys2Proof.core.step s = .refused r := hs
      simp only [Host.Core.run, this] at h; cases h

/-- Under the invariant a step answers a next state. -/
theorem step_next_of_inv {s : State} (hi : s.Inv) : ∃ t, step s = .next t := by
  cases hf : frame s.input with
  | none => exact ⟨_, step_of_incomplete hf⟩
  | some f =>
    cases hd : decodeCommand f.hdr f.data with
    | error c => exact ⟨_, step_of_error hf hd⟩
    | ok i =>
      rw [step_of_ok hf hd]
      exact exec_next (s := s.pastCommand f) (fun h => inv_alg_ne_none (pastCommand_inv hi f) h) i

/-- A step that meets a whole command consumes exactly it. -/
theorem step_stream {s t : State} {f : Framed} (hf : frame s.input = some f) (h : step s = .next t) :
    t.cp = s.cp + 4 + payloadLength f.hdr ∧ t.input = f.rest := by
  rcases step_cases h with ⟨h1, -⟩ | ⟨g, c, h1, -, rfl⟩ | ⟨g, i, h1, -, h2⟩
  · rw [hf] at h1; cases h1
  · rw [hf] at h1; cases h1; simp
  · rw [hf] at h1; cases h1
    have := exec_stream h2
    exact this

/-! ### Sequences of commands -/

theorem execUpdate_ok {a : Alg} {s : State} (hl : s.Live a) {d : List Byte}
    (h : s.len.toNat + d.length < lengthLimit) : exec (.update d) s = .next (afterUpdate a d s) := by
  rw [execUpdate_of_live hl, if_neg (by omega)]

/-- UPDATEs in a row leave what one UPDATE of all their payloads leaves. -/
theorem execAll_updates {a : Alg} {s : State} (hl : s.Live a) (d : List Byte) (ds : List (List Byte))
    (h : s.len.toNat + (d :: ds).flatten.length < lengthLimit) :
    execAll ((d :: ds).map .update) s = .next (afterUpdate a (d :: ds).flatten s) := by
  induction ds generalizing s d with
  | nil =>
    simp only [List.flatten_cons, List.flatten_nil, List.append_nil, List.map_cons, List.map_nil,
      execAll] at h ⊢
    rw [execUpdate_ok hl h]
  | cons e ds ih =>
    rw [List.flatten_cons, List.length_append] at h
    rw [List.map_cons, execAll, execUpdate_ok hl (by omega)]
    have h2 := len_add_toNat (s := s) (n := d.length) (by omega)
    have := ih (afterUpdate_live hl d) e (by rw [afterUpdate_len, h2]; omega)
    simp only
    rw [this, afterUpdate_append, List.flatten_cons]
    rfl

/-- The pieces of a long payload are the payload (30_encoding.md R99). -/
theorem pieces_flatten (m : Nat) (hm : 0 < m) : ∀ (fuel : Nat) (d : List Byte), d.length < fuel →
    (pieces m fuel d).flatten = d ∧ (∀ p ∈ pieces m fuel d, p.length ≤ m) ∧ pieces m fuel d ≠ [] := by
  intro fuel
  induction fuel with
  | zero => intro d h; omega
  | succ fuel ih =>
    intro d h
    rw [pieces]
    split
    · exact ⟨by simp, by simpa, by simp⟩
    · obtain ⟨h1, h2, -⟩ := ih (d.drop m) (by rw [List.length_drop]; omega)
      refine ⟨by rw [List.flatten_cons, h1, List.take_append_drop], ?_, by simp⟩
      intro p hp
      simp only [List.mem_cons] at hp
      rcases hp with rfl | hp
      · rw [List.length_take]; omega
      · exact h2 p hp

/-! ### More bytes behind a command -/

/-- A change that keeps the phase and reaches neither FCODE nor PHASE commutes with a fault. -/
theorem raise_comm (s : State) (g : State → State) (c : FaultCode)
    (hg : ∀ u, (g u).phase = u.phase)
    (h2 : ∀ u fc p, g { u with fcode := fc, phase := p } = { g u with fcode := fc, phase := p }) :
    g (s.raiseFault c) = (g s).raiseFault c := by
  by_cases h : s.phase = .faulted
  · rw [raiseFault_of_faulted h, raiseFault_of_faulted (by rw [hg, h])]
  · rw [raiseFault_of_ne h, raiseFault_of_ne (by rw [hg]; exact h), h2]

theorem hostWrite_bufInput (a : Alg) (d bs : List Byte) (s : State) :
    (s.bufInput a d).hostWrite bs = (s.hostWrite bs).bufInput a d := by
  induction d generalizing s with
  | nil => rfl
  | cons b d ih =>
    rw [bufInput_cons, bufInput_cons, ih]
    congr 1
    rw [State.pushByte, State.pushByte]
    split <;> simp_all [State.hostWrite, State.processBlock, State.fullBuffer]

theorem hostWrite_finish (a : Alg) (bs : List Byte) (s : State) :
    (s.finish a).hostWrite bs = (s.hostWrite bs).finish a := by
  have h : ∀ u : State, (u.padFlush a).hostWrite bs = (u.hostWrite bs).padFlush a := by
    intro u
    rw [State.padFlush, State.padFlush]
    split
    · rename_i hc
      rw [if_pos (show blockBytes a - lengthBytes a < (u.hostWrite bs).plen.toNat from hc)]; rfl
    · rename_i hc
      rw [if_neg (show ¬ blockBytes a - lengthBytes a < (u.hostWrite bs).plen.toNat from hc)]
  have h2 : (s.standardPadding a).hostWrite bs = (s.hostWrite bs).standardPadding a := by
    rw [State.standardPadding, State.standardPadding]
    rw [show (s.hostWrite bs).padMark = s.padMark.hostWrite bs from rfl, ← h]
    rfl
  rw [State.finish, State.finish, ← h2]
  rfl

/-- The meanings do not look at the stream. -/
theorem exec_hostWrite {i : Instr} {s t : State} (bs : List Byte) (h : exec i s = .next t) :
    exec i (s.hostWrite bs) = .next (t.hostWrite bs) := by
  have hr : ∀ c, (s.hostWrite bs).raiseFault c = (s.raiseFault c).hostWrite bs := by
    intro c
    exact (raise_comm s (State.hostWrite bs) c (fun _ => rfl) (fun _ _ _ => rfl)).symm
  have hph : (s.hostWrite bs).phase = s.phase := rfl
  cases i with
  | init a =>
    simp only [exec, execInit, hph] at h ⊢
    split at h <;> (cases h; rfl)
  | status => cases h; rfl
  | update d =>
    rcases withInstance_eq_next h with ⟨h1, h2⟩ | ⟨h1, rfl⟩ | ⟨h1, rfl⟩ | ⟨a, ha, rfl⟩
    · rw [h2]; exact withInstance_of_faulted (s := State.hostWrite bs s) h1 _ _
    · rw [← hr]; exact withInstance_of_idle (s := State.hostWrite bs s) h1 _ _
    · rw [← hr]; exact withInstance_of_finalized (s := State.hostWrite bs s) h1 _ _
    · rw [execUpdate_of_live (s := State.hostWrite bs s) ha]
      congr 1
      split
      · rename_i hc
        have hc' : lengthLimit ≤ s.len.toNat + d.length := hc
        rw [if_pos hc', hr]
      · rename_i hc
        have hc' : ¬ lengthLimit ≤ s.len.toNat + d.length := hc
        rw [if_neg hc', afterUpdate]
        have := hostWrite_bufInput a d bs { s with len := s.len + BitVec.ofNat 64 d.length }
        show _ = { State.hostWrite bs _ with phase := Phase.updating }
        rw [this]; rfl
  | final =>
    rcases withInstance_eq_next h with ⟨h1, h2⟩ | ⟨h1, rfl⟩ | ⟨h1, rfl⟩ | ⟨a, ha, rfl⟩
    · rw [h2]; exact withInstance_of_faulted (s := State.hostWrite bs s) h1 _ _
    · rw [← hr]; exact withInstance_of_idle (s := State.hostWrite bs s) h1 _ _
    · rw [← hr]; exact withInstance_of_finalized (s := State.hostWrite bs s) h1 _ _
    · rw [execFinal_of_live (s := State.hostWrite bs s) ha, afterFinal, ← hostWrite_finish]; rfl
  | compress d =>
    rcases withInstance_eq_next h with ⟨h1, h2⟩ | ⟨h1, rfl⟩ | ⟨h1, rfl⟩ | ⟨a, ha, rfl⟩
    · rw [h2]; exact withInstance_of_faulted (s := State.hostWrite bs s) h1 _ _
    · rw [← hr]; exact withInstance_of_idle (s := State.hostWrite bs s) h1 _ _
    · rw [← hr]; exact withInstance_of_finalized (s := State.hostWrite bs s) h1 _ _
    · rw [execCompress_of_live (s := State.hostWrite bs s) ha]
      split
      · rw [hr]
      · rfl
  | readState =>
    rcases withInstance_eq_next h with ⟨h1, h2⟩ | ⟨h1, rfl⟩ | ⟨h1, rfl⟩ | ⟨a, ha, rfl⟩
    · rw [h2]; exact withInstance_of_faulted (s := State.hostWrite bs s) h1 _ _
    · rw [← hr]; exact withInstance_of_idle (s := State.hostWrite bs s) h1 _ _
    · rw [← hr]; exact withInstance_of_finalized (s := State.hostWrite bs s) h1 _ _
    · rw [execReadState_of_live (s := State.hostWrite bs s) ha]; rfl

/-! ### Two states that differ only in what no command observes -/

/-- What UPDATE leaves, as an update of the state before. -/
theorem afterUpdate_eq {a : Alg} {s : State} (d : List Byte) : afterUpdate a d s = { s with
    h := (afterUpdate a d s).h, buf := (afterUpdate a d s).buf, plen := (afterUpdate a d s).plen,
    len := s.len + BitVec.ofNat 64 d.length, phase := .updating } := by
  obtain ⟨f1, -, f3, f4, f5, f6, f7⟩ :=
    bufInput_frame a d { s with len := s.len + BitVec.ofNat 64 d.length }
  have e1 : (afterUpdate a d s).len = s.len + BitVec.ofNat 64 d.length := f1
  have e3 : (afterUpdate a d s).alg = s.alg := f3
  have e4 : (afterUpdate a d s).fcode = s.fcode := f4
  have e5 : (afterUpdate a d s).cp = s.cp := f5
  have e6 : (afterUpdate a d s).resp = s.resp := f6
  have e7 : (afterUpdate a d s).input = s.input := f7
  have e2 : (afterUpdate a d s).phase = .updating := rfl
  generalize afterUpdate a d s = u at *
  cases u; simp_all

/-- What FINAL leaves, as an update of the state before. -/
theorem afterFinal_eq {a : Alg} {s : State} : afterFinal a s = { s with
    h := (s.finish a).h, buf := (s.finish a).buf, plen := (s.finish a).plen,
    resp := s.resp ++ digest a (s.finish a).h, phase := .finalized } := by
  obtain ⟨f1, -, f3, f4, f5, f6, f7⟩ := finish_frame a s
  have e1 : (afterFinal a s).len = s.len := f1
  have e3 : (afterFinal a s).alg = s.alg := f3
  have e4 : (afterFinal a s).fcode = s.fcode := f4
  have e5 : (afterFinal a s).cp = s.cp := f5
  have e6 : (afterFinal a s).resp = s.resp ++ digest a (s.finish a).h := by
    show (s.finish a).resp ++ _ = _; rw [f6]
  have e7 : (afterFinal a s).input = s.input := f7
  have e2 : (afterFinal a s).phase = .finalized := rfl
  have e8 : (afterFinal a s).h = (s.finish a).h := rfl
  have e9 : (afterFinal a s).buf = (s.finish a).buf := rfl
  have e10 : (afterFinal a s).plen = (s.finish a).plen := rfl
  generalize afterFinal a s = u at *
  generalize s.finish a = v at *
  cases u; simp_all

theorem pending_of_plen_zero {s : State} (h : s.plen = 0) : s.pending = [] := by simp [State.pending, h]

theorem raise_inj {s : State} {c d : FaultCode} (hs : s.phase ≠ .faulted)
    (h : s.raiseFault c = s.raiseFault d) : c = d := by
  have := congrArg State.fcode h
  rw [raiseFault_fcode_of_ne hs, raiseFault_fcode_of_ne hs] at this
  exact Option.some.inj this

/-- Whether a command faults, and with which code, depends on PHASE, ALG and LEN alone. -/
theorem exec_raise {i : Instr} {s t : State} {c : FaultCode} (h : exec i s = .next (s.raiseFault c))
    (hs : s.phase ≠ .faulted) (hp : t.phase = s.phase) (ha : t.alg = s.alg) (hl : t.len = s.len) :
    exec i t = .next (t.raiseFault c) := by
  have hpf : (s.raiseFault c).phase = .faulted := raiseFault_phase _ _
  have inj : ∀ {u v : State}, (Host.Outcome.next u : Host.Outcome State Fault Refusal) = .next v →
      u = v := by
    rintro u v ⟨⟩
    rfl
  have hinst : ∀ cc (b1 b2 : Alg → State), s.withInstance cc b1 = .next (s.raiseFault c) →
      (∀ a, s.Live a → b1 a = s.raiseFault c → b2 a = t.raiseFault c) →
      t.withInstance cc b2 = .next (t.raiseFault c) := by
    intro cc b1 b2 h hb
    cases hsp : s.phase with
    | faulted => exact absurd hsp hs
    | idle =>
      rw [withInstance_of_idle hsp] at h
      rw [withInstance_of_idle (hp.trans hsp), raise_inj hs (inj h)]
    | finalized =>
      rw [withInstance_of_finalized hsp] at h
      rw [withInstance_of_finalized (hp.trans hsp), raise_inj hs (inj h)]
    | fresh =>
      cases hal : s.alg with
      | none => simp [State.withInstance, hsp, hal] at h
      | some a =>
        have hL : s.Live a := ⟨.inl hsp, hal⟩
        rw [withInstance_of_live hL] at h
        rw [withInstance_of_live (a := a) ⟨.inl (hp.trans hsp), ha.trans hal⟩, hb a hL (inj h)]
    | updating =>
      cases hal : s.alg with
      | none => simp [State.withInstance, hsp, hal] at h
      | some a =>
        have hL : s.Live a := ⟨.inr hsp, hal⟩
        rw [withInstance_of_live hL] at h
        rw [withInstance_of_live (a := a) ⟨.inr (hp.trans hsp), ha.trans hal⟩, hb a hL (inj h)]
  cases i with
  | init a =>
    rw [execInit_of_ne hs] at h
    have h2 := inj h
    rw [← h2] at hpf; cases hpf
  | status =>
    have h2 := inj h
    rw [← h2] at hpf; exact absurd hpf hs
  | update d =>
    refine hinst _ _ _ h ?_
    intro a hL hb
    rw [hl]
    split at hb
    · rename_i hc
      rw [if_pos hc, raise_inj hs hb]
    · rw [← hb] at hpf; cases hpf
  | final =>
    refine hinst _ _ _ h ?_
    intro a hL hb
    rw [← hb] at hpf; cases hpf
  | compress d =>
    refine hinst _ _ _ h ?_
    intro a hL hb
    split at hb
    · rename_i hc
      rw [if_pos hc, raise_inj hs hb]
    · rw [← hb] at hpf; cases hpf
  | readState =>
    refine hinst _ _ _ h ?_
    intro a hL hb
    rw [← hb] at hpf; exact absurd hpf hs

/-- A command takes two such states to two such states. -/
theorem exec_sameObservable {i : Instr} {s t s' : State} (hi : s.Inv) (h : s.SameObservable t)
    (hs : exec i s = .next s') : ∃ t', exec i t = .next t' ∧ s'.SameObservable t' := by
  obtain ⟨hst, hal⟩ := h
  have hph : t.phase = s.phase := by rw [hst]
  have halg : t.alg = s.alg := by rw [hst]
  have hlen : t.len = s.len := by rw [hst]
  have hplen : t.plen = s.plen := by rw [hst]
  have hresp : t.resp = s.resp := by rw [hst]
  have hraise : ∀ c, (s.raiseFault c).SameObservable (t.raiseFault c) := by
    intro c
    refine ⟨?_, ?_⟩
    · by_cases h : s.phase = .faulted
      · rw [raiseFault_of_faulted h, raiseFault_of_faulted (hph.trans h)]; exact hst
      · rw [raiseFault_of_ne h, raiseFault_of_ne (by rw [hph]; exact h)]
        rw [hst]
    · intro a ha
      simp only [raiseFault_alg] at ha
      have := hal a ha
      simpa [State.pending] using this
  have hemit : ∀ b, (s.emit b).SameObservable (t.emit b) := by
    intro b
    refine ⟨?_, hal⟩
    show ({t with resp := t.resp ++ b} : State) = _
    rw [hst]; rfl
  rcases exec_eq_next hs with ⟨h4, h5, rfl⟩ | ⟨hsn, -, -, c, rfl⟩ | ⟨a, rfl, hp, rfl⟩ | ⟨a, d, rfl, hl, hn, rfl⟩ |
      ⟨a, rfl, hl, rfl⟩ | ⟨a, d, rfl, hl, hd, rfl⟩ | ⟨a, rfl, hl, rfl⟩ | ⟨rfl, rfl⟩
  · exact ⟨t, exec_of_faulted (hph.trans h4) h5, ⟨hst, hal⟩⟩
  · refine ⟨t.raiseFault c, ?_, hraise c⟩
    exact exec_raise hs hsn hph halg hlen
  · refine ⟨_, execInit_of_ne (by rw [hph]; exact hp) a, ⟨?_, ?_⟩⟩
    · simp only [freshInstance]
      rw [hst]
    · intro b hb
      exact ⟨rfl, rfl⟩
  · have hlt : t.Live a := ⟨by rw [hph]; exact hl.1, halg.trans hl.2⟩
    obtain ⟨k1, k2⟩ := hal a hl.2
    have hps := inv_plen_lt hi hl.2
    obtain ⟨e1, e2, e3, e4, -⟩ := afterUpdate_spec hps d
    obtain ⟨g1, g2, g3, g4, -⟩ := afterUpdate_spec (s := t) (by rw [hplen]; exact hps) d
    refine ⟨_, execUpdate_ok hlt (by rw [hlen]; exact hn), ?_, ?_⟩
    · have q : (afterUpdate a d t).plen = (afterUpdate a d s).plen := by
        apply BitVec.eq_of_toNat_eq; rw [e3, g3, hplen]
      rw [afterUpdate_eq (s := t), afterUpdate_eq (s := s), q]
      simp only
      rw [hst]
    · intro b _
      rw [e1, e2, g1, g2, k1, k2]; exact ⟨rfl, rfl⟩
  · have hlt : t.Live a := ⟨by rw [hph]; exact hl.1, halg.trans hl.2⟩
    obtain ⟨k1, k2⟩ := hal a hl.2
    have hps := inv_plen_lt hi hl.2
    obtain ⟨z, hz⟩ := exists_leastPadding a s.plen.toNat
    obtain ⟨e1, e2, -, -⟩ := finish_spec hps hz
    obtain ⟨g1, g2, -, -⟩ := finish_spec (s := t) (by rw [hplen]; exact hps) (by rw [hplen]; exact hz)
    have hh : (t.finish a).h = (s.finish a).h := by rw [g1, e1, k1, k2, hlen]
    refine ⟨_, execFinal_of_live hlt, ⟨?_, ?_⟩⟩
    · rw [afterFinal_eq (s := t), afterFinal_eq (s := s)]
      simp only [e2, g2, hh]
      rw [hst]
    · intro b _
      refine ⟨hh, ?_⟩
      rw [pending_of_plen_zero (s := afterFinal a t) g2, pending_of_plen_zero (s := afterFinal a s) e2]
  · have hlt : t.Live a := ⟨by rw [hph]; exact hl.1, halg.trans hl.2⟩
    obtain ⟨k1, k2⟩ := hal a hl.2
    have hh : (afterCompress a d t).h = (afterCompress a d s).h := by
      show compress a t.h d = compress a s.h d; rw [k1]
    refine ⟨_, (execCompress_of_live hlt d).trans (by rw [if_neg (by simp [hd])]), ⟨?_, ?_⟩⟩
    · show ({ t with h := _, phase := _ } : State) = { s with h := _, buf := t.buf, phase := _ }
      rw [hst]
      rfl
    · intro b _
      exact ⟨hh, k2⟩
  · have hlt : t.Live a := ⟨by rw [hph]; exact hl.1, halg.trans hl.2⟩
    obtain ⟨k1, k2⟩ := hal a hl.2
    refine ⟨_, execReadState_of_live hlt, ?_⟩
    rw [k1]; exact hemit _
  · refine ⟨_, rfl, ?_⟩
    have : t.statusWord = s.statusWord := by rw [hst]; rfl
    rw [this]; exact hemit _

end Sys2Proof.Machine
end

