-- ==== Sys2Proof/Tests/Slice0.lean ====
section
/-! SUPPORT. The model's own tests. Expected values are those of spec/95_test_vectors.md and of the
examples in the rules named. The witnesses at the end meet the hypotheses of the statements of
Certificates/Slice0/Obligations.lean, one theorem for each statement that has any. -/

namespace Sys2Proof.Machine

/-! ### States for the tests -/

/-- A fresh instance of `a` with `stream` to read. -/
def live (a : Alg) (stream : List Byte) : State :=
  { State.reset with phase := .fresh, alg := some a, h := initialValue a, input := stream }

/-- An instance of `a` that has taken `n` bytes, the last `msg.length` of them pending. -/
def holding (a : Alg) (msg : List Byte) (n : Nat) : State :=
  { live a [] with
    phase := .updating
    buf := writeBuf State.reset.buf 0 msg
    plen := BitVec.ofNat 8 msg.length
    len := BitVec.ofNat 64 n }

/-- A core in the Faulted phase. -/
def stuck (stream : List Byte) : State :=
  { live .sha256 stream with phase := .faulted, fcode := some .doubleFinal }

/-- "abc". -/
def abc : List Byte := [0x61, 0x62, 0x63]

/-- What a test looks at, where the outcome is a next state. -/
def after {α : Type} (o : Host.Outcome State Fault Refusal) (f : State → α) : Option α :=
  match o with
  | .next t => some (f t)
  | .fault _ => none
  | .refused _ => none

/-! ### WellFormed -/

theorem test_wf_init (a : Alg) : (Instr.init a).WellFormed := rfl

theorem test_wf_update_longest : (Instr.update (zeros (2 ^ 24 - 1))).WellFormed := by
  simp [Instr.WellFormed, Instr.wellFormed]

theorem test_illformed_update_refused : ¬(Instr.update (zeros (2 ^ 24))).WellFormed := by
  simp [Instr.WellFormed, Instr.wellFormed]

theorem test_wf_compress_longest : (Instr.compress (zeros (2 ^ 24 - 1))).WellFormed := by
  simp [Instr.WellFormed, Instr.wellFormed]

theorem test_illformed_compress_refused : ¬(Instr.compress (zeros (2 ^ 24))).WellFormed := by
  simp [Instr.WellFormed, Instr.wellFormed]

/-! ### Decoding: each constructor's word written out from the formats of 30_encoding.md R91 -/

theorem test_decode_init : decode (headerBytes (0b00000001#8 ++ 0b00000000000000000000#20 ++ 0b0011#4))
    = .command (.init .sha384) [] := by decide

theorem test_decode_init_codes :
    [1, 2, 3, 4, 5, 6, 7].map (fun w => decodeTableWord 32 (0x01000000 + w)) =
      [.sha224, .sha256, .sha384, .sha512, .sha512t224, .sha512t256, .ripemd160].map
        fun a => some (Instr.init a) := by decide

theorem test_decode_update :
    decode (headerBytes (0b00000010#8 ++ 0b000000000000000000000010#24) ++ [0xaa, 0xbb, 0xcc])
      = .command (.update [0xaa, 0xbb]) [0xcc] := by decide

theorem test_decode_final :
    decode (headerBytes (0b00000011#8 ++ 0b000000000000000000000000#24)) = .command .final [] := by decide

theorem test_decode_compress :
    decode (headerBytes (0b00000100#8 ++ 0b000000000000000000000001#24) ++ [0xaa, 0xbb])
      = .command (.compress [0xaa]) [0xbb] := by decide

theorem test_decode_readState :
    decode (headerBytes (0b00000101#8 ++ 0b000000000000000000000000#24)) = .command .readState [] := by
  decide

theorem test_decode_status :
    decode (headerBytes (0b00000110#8 ++ 0b000000000000000000000000#24)) = .command .status [] := by decide

/-- The verdicts of R94, at the ends of each range. -/
theorem test_decode_illegal :
    decode [0x00, 0, 0, 0] = .illegal .illegalOpcode [] ∧
      decode [0x07, 0, 0, 0] = .illegal .illegalOpcode [] ∧
      decode [0xff, 0, 0, 1] = .illegal .illegalOpcode [] ∧
      decode [0x01, 0x00, 0x00, 0x12] = .illegal .reservedOperand [] ∧
      decode [0x01, 0x80, 0x00, 0x02] = .illegal .reservedOperand [] ∧
      decode [0x03, 0x00, 0x00, 0x01] = .illegal .reservedOperand [] ∧
      decode [0x05, 0x80, 0x00, 0x00] = .illegal .reservedOperand [] ∧
      decode [0x06, 0x00, 0x01, 0x00] = .illegal .reservedOperand [] ∧
      decode [0x01, 0, 0, 0x00] = .illegal .badAlg [] ∧
      decode [0x01, 0, 0, 0x08] = .illegal .badAlg [] ∧
      decode [0x01, 0, 0, 0x0f] = .illegal .badAlg [] := by decide

theorem test_decode_incomplete :
    decode [] = .incomplete ∧ decode [0x06, 0, 0] = .incomplete ∧
      decode [0x02, 0, 0, 2, 0xaa] = .incomplete := by decide

/-- The rows of spec/opcode_table.json. -/
theorem test_decodeTableWord :
    decodeTableWord 32 0x02000002 = some (.update [0, 0]) ∧ decodeTableWord 32 0x03000000 = some .final ∧
      decodeTableWord 32 0x04000001 = some (.compress [0]) ∧
      decodeTableWord 32 0x05000000 = some .readState ∧ decodeTableWord 32 0x06000000 = some .status ∧
      decodeTableWord 32 0x07000000 = none := by decide

/-- A command put in front of the stream is the one the next step runs. -/
theorem test_withFetchWord :
    after (step (State.reset.withFetchWord 32 0x01000002)) id = some (freshInstance .sha256
      { State.reset with cp := 4 }) := by decide +kernel

/-! ### Words and primitives (95_test_vectors.md section 2) -/

theorem test_byteOrder :
    be [0x61, 0x62, 0x63, 0x80] = 0x61626380 ∧ le [0x61, 0x62, 0x63, 0x80] = 0x80636261 ∧
      toBE 0x322 4 = [0, 0, 3, 0x22] ∧ toLE 24 8 = [0x18, 0, 0, 0, 0, 0, 0, 0] := by decide

theorem test_primitives32 :
    rotr 0x12345678#32 7 = 0xf02468ac ∧ shr 0x12345678#32 3 = 0x02468acf ∧
      sha2Core32.bigSigma0 0x12345678 = 0x66146474 ∧ sha2Core32.bigSigma1 0x12345678 = 0x3561abda ∧
      sha2Core32.smallSigma0 0x12345678 = 0xe7fce6ee ∧ sha2Core32.smallSigma1 0x12345678 = 0xa1f78649 ∧
      sha2Core32.smallSigma0 0xffffffff = 0x1fffffff ∧
      ch 0xf0f0f0f0#32 0xaaaaaaaa 0x55555555 = 0xa5a5a5a5 ∧
      maj 0xf0f0f0f0#32 0xcccccccc 0xaaaaaaaa = 0xe8e8e8e8 := by decide

theorem test_primitives64 :
    sha2Core64.bigSigma0 0x0123456789abcdef = 0xb7c57a100c7ec1ab ∧
      sha2Core64.bigSigma1 0x0123456789abcdef = 0x7703112333475567 ∧
      sha2Core64.smallSigma0 0x0123456789abcdef = 0x6f92c77c6c4f1aa1 ∧
      sha2Core64.smallSigma1 0x0123456789abcdef = 0x70a3460dbbd4317a ∧
      maj 0xffffffff00000000#64 0xffff0000ffff0000 0 = 0xffff000000000000 := by decide

theorem test_primitives160 :
    f1 0xf0f0f0f0 0xcccccccc 0xaaaaaaaa = 0x96969696 ∧ f2 0xf0f0f0f0 0xcccccccc 0xaaaaaaaa = 0xcacacaca ∧
      f3 0xf0f0f0f0 0xcccccccc 0xaaaaaaaa = 0x59595959 ∧
      f4 0xf0f0f0f0 0xcccccccc 0xaaaaaaaa = 0xe4e4e4e4 ∧
      f5 0xf0f0f0f0 0xcccccccc 0xaaaaaaaa = 0x2d2d2d2d := by decide

/-! ### The cores (95_test_vectors.md section 4, K1, K5 and K10) -/

theorem test_compress32 : compress .sha256 (Vector.replicate 8 0) (zeros 64) =
    #v[0x7ca51614, 0x425c3ba8, 0xce54dd2f, 0xc2020ae7, 0xb6e574d1, 0x98136d0f, 0xae7e26cc,
      0xbf0be7a6] := by decide +kernel

theorem test_compress64 : compress .sha512 (Vector.replicate 8 0) (zeros 128) =
    #v[0xad3a5da838ebf830, 0x5d7142ff85fcbedb, 0x7fa8bf86d6f7ca99, 0x1c6b15b039d70bbf,
      0x29f6515289923518, 0x6fd7101d5f2e8f3a, 0x1c358d2476531450, 0x568c0d99d756dc3c] := by
  decide +kernel

theorem test_compress160 : compress .ripemd160 (Vector.replicate 8 0) (zeros 64) =
    #v[0x6bb9fe69, 0x3d09c7c0, 0x48ed6a0e, 0x7d117c5d, 0xadc8e12d, 0, 0, 0] := by decide +kernel

/-! ### One step of each command -/

/-- R310: the status after INIT SHA-256. -/
theorem test_init_status :
    after (exec (.init .sha256) State.reset) State.statusWord = some 0x00000021 := by decide

/-- INIT discards a finalized instance (R310). -/
theorem test_init_after_final :
    after (exec (.init .ripemd160) { holding .sha512 abc 131 with phase := .finalized })
      (fun t => (t.phase, t.plen, t.len, t.h[5])) = some (.fresh, 0, 0, 0) := by decide

/-- R314: the status after UPDATE "abc". -/
theorem test_update_status :
    after (exec (.update abc) (live .sha256 [])) (fun t => (t.statusWord, t.len, t.pending, t.h))
      = some (0x00000322, 3, abc, ivSha256) := by decide +kernel

/-- 95_test_vectors.md section 5, B4: the byte that fills the buffer empties it. -/
theorem test_update_fills_block :
    after (exec (.update [0]) (holding .sha256 (zeros 63) 63)) (fun t => (t.plen, t.len, t.h[0]))
      = some (0, 64, 0xda5698be) := by decide +kernel

/-- R318: SHA-256 of "abc". -/
theorem test_final_sha256 :
    after (exec .final (holding .sha256 abc 3)) (fun t => (t.resp, t.statusWord)) =
      some (toBE 0xba7816bf8f01cfea414140de5dae2223b00361a396177a9cb410ff61f20015ad 32, 0x00000023) := by
  decide +kernel

/-- 43_ripemd160.md R260: RIPEMD-160 of "abc". -/
theorem test_final_ripemd160 :
    after (exec .final (holding .ripemd160 abc 3)) State.resp =
      some (toBE 0x8eb208f7e05d987a9b044a8e98c6b087f15a0bfc 20) := by decide +kernel

/-- R322: the compression of a zero block from the SHA-256 initial value. -/
theorem test_compress_zeros :
    after (exec (.compress (zeros 64)) (holding .sha256 abc 3))
      (fun t => (serialize .sha256 t.h, t.statusWord, t.len)) =
      some (toBE 0xda5698be17b9b46962335799779fbeca8ce5d491c0d26243bafef9ea1837a9d8 32, 0x00000322, 3) := by
  decide +kernel

/-- R322: a payload one byte short of a block. -/
theorem test_compress_wrong_length :
    after (exec (.compress (zeros 127)) (live .sha384 [])) (fun t => (t.fcode, t.h))
      = some (some .blockLength, ivSha384) := by decide +kernel

/-- R326: the state after INIT SHA-256. -/
theorem test_readState :
    after (exec .readState (live .sha256 [])) State.resp =
      some (toBE 0x6a09e667bb67ae853c6ef372a54ff53a510e527f9b05688c1f83d9ab5be0cd19 32) := by decide

/-- R326: SHA-512/224 shows all 64 bytes, most significant first. -/
theorem test_readState_untruncated :
    after (exec .readState (live .sha512t224 [])) (fun t => (t.resp.length, t.resp.take 8)) =
      some (64, toBE 0x8c3d37c819544da2 8) := by decide

/-- R330: STATUS after a double FINAL. -/
theorem test_status_faulted :
    after (exec .status (stuck [])) State.resp = some [0x00, 0x06, 0x00, 0x24] := by decide

theorem test_status_reset : after (exec .status State.reset) State.resp = some [0, 0, 0, 0] := by decide

/-- 60_exceptions.md R342's examples. -/
theorem test_check_order :
    after (step { State.reset with input := [0x05, 0, 0, 1] }) State.fcode = some (some .reservedOperand) ∧
      after (exec (.compress (zeros 10)) { live .sha256 [] with phase := .finalized }) State.fcode
        = some (some .useAfterFinal) ∧
      after (step { live .sha256 [] with phase := .finalized, input := [0x01, 0, 0, 9] }) State.fcode
        = some (some .badAlg) := by decide

/-! ### Witnesses: states and operands that meet the hypotheses of the statements -/

theorem live_live (a : Alg) (stream : List Byte) : (live a stream).Live a := ⟨.inl rfl, rfl⟩

theorem live_inv (a : Alg) (stream : List Byte) : (live a stream).Inv := by
  refine ⟨⟨.fresh, by simp, fun _ => rfl, ?_⟩, by simp [live, State.reset], ?_, ?_⟩
  · refine ⟨by simp, by simp [live], fun _ => ⟨rfl, rfl, ?_⟩, by simp, ?_, ?_⟩
    · rintro b ⟨⟩
      rfl
    · rintro b ⟨⟩
      exact blockBytes_pos a
    · rintro - b ⟨⟩
      simp [live, State.reset]
  · simp [live, State.reset]
  · rintro b ⟨⟩
    exact initialValue_unusedBitsZero a

theorem witness_DecodeEncodeRoundTrip :
    (Instr.update [0x61]).WellFormed ∧ (Instr.compress []).WellFormed ∧ (Instr.init .sha512).WellFormed :=
  ⟨rfl, rfl, rfl⟩

theorem witness_DecodedBytesAreTheEncoding :
    decode [0x02, 0, 0, 1, 0x61, 0xff] = .command (.update [0x61]) [0xff] := by decide

/-- A header for each clause, at both ends of its range. -/
theorem witness_HeaderRowsSelectCommands :
    (0x01000001#32 &&& 0xFFFFFFF0#32 = 0x01000000#32 ∧
      (0x01000001#32).extractLsb 3 0 = codeOfAlg .sha224) ∧
    (0x01000007#32 &&& 0xFFFFFFF0#32 = 0x01000000#32 ∧
      (0x01000007#32).extractLsb 3 0 = codeOfAlg .ripemd160) ∧
    (0x01000000#32 &&& 0xFFFFFFF0#32 = 0x01000000#32 ∧ ((0x01000000#32).extractLsb 3 0).toNat = 0) ∧
    (0x01000008#32 &&& 0xFFFFFFF0#32 = 0x01000000#32 ∧ ((0x01000008#32).extractLsb 3 0).toNat = 8) ∧
    0x02ffffff#32 &&& 0xFF000000#32 = 0x02000000#32 ∧ 0x03000000#32 &&& 0xFFFFFFFF#32 = 0x03000000#32 ∧
    0x04000000#32 &&& 0xFF000000#32 = 0x04000000#32 ∧ 0x05000000#32 &&& 0xFFFFFFFF#32 = 0x05000000#32 ∧
    0x06000000#32 &&& 0xFFFFFFFF#32 = 0x06000000#32 ∧
    ((0x00ffffff#32).extractLsb 31 24).toNat = 0 ∧ ((0x07000000#32).extractLsb 31 24).toNat = 7 ∧
    (((0x01000010#32).extractLsb 31 24).toNat = 1 ∧ ((0x01000010#32).extractLsb 23 4).toNat = 1) ∧
    (((0x03000001#32).extractLsb 31 24).toNat = 3 ∧ ((0x03000001#32).extractLsb 23 0).toNat = 1) ∧
    (((0x05800000#32).extractLsb 31 24).toNat = 5 ∧ ((0x05800000#32).extractLsb 23 0).toNat ≠ 0) ∧
    ((0x06000001#32).extractLsb 31 24).toNat = 6 ∧ ((0x06000001#32).extractLsb 23 0).toNat = 1 := by
  decide

theorem witness_StepRunsDecodedCommand :
    decode (live .sha256 [0x02, 0, 0, 1, 0x61, 0x06]).input = .command (.update [0x61]) [0x06] := by decide

/-- Outside the Faulted phase and in it. -/
theorem witness_StepRaisesDecodeFault :
    (decode (live .sha256 [0x03, 0, 0, 1]).input = .illegal .reservedOperand [] ∧
      (live .sha256 [0x03, 0, 0, 1]).phase ≠ .faulted) ∧
    decode (stuck [0x07, 0, 0, 0]).input = .illegal .illegalOpcode [] ∧
      (stuck [0x07, 0, 0, 0]).phase = .faulted := by decide

/-- With and without a payload; the payload has arrived to its last byte. -/
theorem witness_CommandLengthFromHeader :
    (∃ s : State, s.Inv ∧ s.input = 0x04 :: 0x00 :: 0x00 :: 0x02 :: [0xaa, 0xbb] ∧
      (2 = if (0x04 : Byte) = 0x02 ∨ (0x04 : Byte) = 0x04
        then (0x00 : Byte).toNat * 65536 + (0x00 : Byte).toNat * 256 + (0x02 : Byte).toNat else 0) ∧
      2 ≤ [0xaa, 0xbb].length) ∧
    ∃ s : State, s.Inv ∧ s.input = 0x07 :: 0xff :: 0xff :: 0xff :: [] ∧
      (0 = if (0x07 : Byte) = 0x02 ∨ (0x07 : Byte) = 0x04
        then (0xff : Byte).toNat * 65536 + (0xff : Byte).toNat * 256 + (0xff : Byte).toNat else 0) ∧
      0 ≤ ([] : List Byte).length :=
  ⟨⟨live .sha256 [0x04, 0, 0, 2, 0xaa, 0xbb], live_inv _ _, rfl, by decide, by decide⟩,
    live .sha256 [0x07, 0xff, 0xff, 0xff], live_inv _ _, rfl, by decide, by decide⟩

/-- Three header bytes, and one payload byte missing. -/
theorem witness_CoreWaitsForBytes :
    (live .sha256 [0x02, 0, 0]).input.length < 4 ∧
    ∃ op x y z more, (live .sha256 [0x04, 0, 0, 2, 0xaa]).input = op :: x :: y :: z :: more ∧
      (op = 0x02 ∨ op = 0x04) ∧ more.length < x.toNat * 65536 + y.toNat * 256 + z.toNat :=
  ⟨by decide, 0x04, 0, 0, 2, [0xaa], rfl, by decide, by decide⟩

theorem witness_LaterBytesDoNotMatter :
    decode (live .sha256 [0x06, 0, 0, 0]).input ≠ .incomplete ∧
      ∃ t, step (live .sha256 [0x06, 0, 0, 0]) = .next t :=
  ⟨by decide, step_next_of_inv (live_inv _ _)⟩

/-- A legal command, an illegal one, and one with a payload. -/
theorem witness_WholeStreamIsConsumed :
    ∃ (s : State) (cmds : List (Word32 × List Byte)), s.Inv ∧ cmds.length = 3 ∧
      (∀ c ∈ cmds, c.2.length = payloadLength c.1) ∧
      s.input = cmds.flatMap (fun c => headerBytes c.1 ++ c.2) :=
  ⟨live .sha256 [0x06, 0, 0, 0, 0x07, 0, 0, 1, 0x02, 0, 0, 1, 0xaa],
    [(0x06000000, []), (0x07000001, []), (0x02000001, [0xaa])], live_inv _ _, rfl, by decide, by decide⟩

theorem witness_FaultsArePrecise :
    (live .sha256 [0x07, 0, 0, 0]).phase ≠ .faulted ∧
      after (step (live .sha256 [0x07, 0, 0, 0])) State.phase = some .faulted := by decide

/-- The hypotheses hold of a live instance with each of these headers in front: the operand on both sides
of each limit of R342, and COMPRESS of the wrong and of the right length. -/
theorem witness_FirstFaultConditionIsReported :
    (∀ stream, (live .sha256 stream).Inv ∧ (live .sha256 stream).phase ≠ .faulted) ∧
      ([0x00000000, 0x07000000, 0x01000010, 0x0100000f, 0x01000000, 0x01000008, 0x01000007, 0x03000001,
        0x03000000, 0x04000000, 0x02000000] : List Word32).all
        (fun hdr => (frame (headerBytes hdr)).isSome) = true ∧
      (frame (headerBytes 0x04000040 ++ zeros 64)).isSome = true := by
  refine ⟨fun stream => ⟨live_inv _ _, by simp [live]⟩, ?_, ?_⟩
  · decide +kernel
  · decide +kernel

/-- STATUS, and a command with a payload. -/
theorem witness_FaultedPhaseAnswersStatusOnly :
    ((stuck [0x06, 0, 0, 0]).phase = .faulted ∧ (frame (stuck [0x06, 0, 0, 0]).input).isSome) ∧
      (stuck [0x02, 0, 0, 1, 9]).phase = .faulted ∧ (frame (stuck [0x02, 0, 0, 1, 9]).input).isSome := by
  decide

theorem witness_FaultedIsLeftOnlyByReset :
    (stuck []).phase = .faulted ∧ Event.reset ∉ [Event.write [0x01, 0, 0, 2], .step] ∧
      (after ((stuck []).events [.write [0x01, 0, 0, 2], .step]) fun _ => ()) = some () := by decide

theorem witness_FaultCodeIsWrittenOnlyByFaults :
    after (step (live .sha256 [0x07, 0, 0, 0])) State.fcode = some (some .illegalOpcode) ∧
      (live .sha256 [0x07, 0, 0, 0]).fcode = none := by decide

/-- The two cases of the conclusion and both of its kinds of command. -/
theorem witness_IdleAllowsOnlyInitAndStatus :
    State.reset.phase = .idle ∧
      ((∃ a, Instr.init .sha224 = .init a) ∨ Instr.init .sha224 = .status) ∧
      ¬((∃ a, Instr.final = .init a) ∨ Instr.final = .status) :=
  ⟨rfl, .inl ⟨_, rfl⟩, by simp⟩

theorem witness_CommandsOutsideTheirPhases :
    ({ live .sha256 [] with phase := .finalized } : State).phase = .finalized ∧
      (stuck []).phase = .faulted ∧ Instr.final ≠ .status := by decide

theorem witness_InitLoadsFreshInstance : State.reset.phase ≠ .faulted := by decide

theorem witness_InitialValuesOfEachAlgorithm : (live .sha512 []).phase ≠ .faulted := by decide

/-- The last byte below the limit, on a full block. -/
theorem witness_UpdateAbsorbsPayload :
    (holding .sha256 (zeros 63) (2 ^ 61 - 2)).Live .sha256 ∧
      (holding .sha256 (zeros 63) (2 ^ 61 - 2)).plen.toNat < blockBytes .sha256 ∧
      (holding .sha256 (zeros 63) (2 ^ 61 - 2)).len.toNat + [(0xaa : Byte)].length < 2 ^ 61 :=
  ⟨⟨.inr rfl, rfl⟩, by decide, by decide⟩

theorem witness_UpdateIsChunkInvariant :
    (live .sha256 []).Live .sha256 ∧ [[0x61], [], [0x62, 0x63]] ≠ ([] : List (List Byte)) ∧
      (live .sha256 []).len.toNat + [[0x61], [], [(0x62 : Byte), 0x63]].flatten.length < 2 ^ 61 :=
  ⟨live_live _ _, by decide, by decide⟩

/-- The longest pending bytes that need one block, and the shortest that need two, for both block sizes. -/
theorem witness_FinalPadsAndEmitsDigest :
    ((holding .sha256 (zeros 55) 55).Live .sha256 ∧ LeastPadding .sha256 55 0 ∧
        (holding .sha256 (zeros 55) 55).plen.toNat = 55) ∧
    ((holding .sha256 (zeros 56) 56).Live .sha256 ∧ LeastPadding .sha256 56 63 ∧
        (holding .sha256 (zeros 56) 56).plen.toNat = 56) ∧
    ((holding .sha512 (zeros 111) 111).Live .sha512 ∧ LeastPadding .sha512 111 0 ∧
        (holding .sha512 (zeros 111) 111).plen.toNat = 111) ∧
    (holding .sha512 (zeros 112) 112).Live .sha512 ∧ LeastPadding .sha512 112 127 ∧
        (holding .sha512 (zeros 112) 112).plen.toNat = 112 := by
  simp only [leastPadding_iff]
  exact ⟨⟨⟨.inr rfl, rfl⟩, by decide, by decide⟩, ⟨⟨.inr rfl, rfl⟩, by decide, by decide⟩,
    ⟨⟨.inr rfl, rfl⟩, by decide, by decide⟩, ⟨.inr rfl, rfl⟩, by decide, by decide⟩

/-- A payload of one block, and payloads one byte off. -/
theorem witness_CompressRunsOneBlock :
    (live .sha384 []).Live .sha384 ∧ (zeros 128).length = blockBytes .sha384 ∧
      (zeros 127).length ≠ blockBytes .sha384 ∧ (zeros 129).length ≠ blockBytes .sha384 := by
  rw [zeros_length, zeros_length, zeros_length]
  exact ⟨live_live _ _, by decide, by decide, by decide⟩

/-- At the limit, and one byte below it. -/
theorem witness_LengthOverflowIsExact :
    (holding .sha256 (zeros 63) (2 ^ 61 - 1)).Live .sha256 ∧
      2 ^ 61 ≤ (holding .sha256 (zeros 63) (2 ^ 61 - 1)).len.toNat + [(0 : Byte)].length ∧
      (holding .sha256 (zeros 63) (2 ^ 61 - 1)).len.toNat + ([] : List Byte).length < 2 ^ 61 :=
  ⟨⟨.inr rfl, rfl⟩, by decide, by decide⟩

theorem witness_ReadStateEmitsTheWords : (live .ripemd160 []).Live .ripemd160 := live_live _ _

theorem witness_RepeatedCommands :
    (live .sha256 []).Live .sha256 ∧ (live .sha256 []).len.toNat + 2 * abc.length < 2 ^ 61 :=
  ⟨live_live _ _, by decide⟩

/-- No flush, and a flush, on both sides of the limit. -/
theorem witness_StandardPaddingLeavesRoom :
    ((holding .sha256 (zeros 55) 55).plen.toNat < blockBytes .sha256 ∧
      (holding .sha256 (zeros 55) 55).plen.toNat + 1 + lengthBytes .sha256 ≤ blockBytes .sha256) ∧
    (holding .sha256 (zeros 56) 56).plen.toNat < blockBytes .sha256 ∧
      blockBytes .sha256 < (holding .sha256 (zeros 56) 56).plen.toNat + 1 + lengthBytes .sha256 := by
  decide +kernel

theorem witness_LengthFieldBytes : (BitVec.ofNat 64 (2 ^ 61 - 1)).toNat ≤ 2 ^ 61 - 1 := by decide

theorem witness_DigestHoldsTheseWords (h : Vector Word64 8) :
    ∃ w : Nat → Nat → List Byte, ∀ i (hi : i < 8) k, w k i = toBE (h[i].toNat % 256 ^ k) k :=
  ⟨fun k i => if hi : i < 8 then toBE (h[i].toNat % 256 ^ k) k else [], fun i hi k => by simp [hi]⟩

/-- The working sets of a block of zeros, whose schedule is zero (41_sha2_32.md R157). -/
def zeroSets32 (s : Working 32) : Nat → Working 32
  | 0 => s
  | t + 1 => sha2Round sha2Core32 (zeroSets32 s t) (k32.getD t 0, 0)

/-- The same for the 64-bit core. -/
def zeroSets64 (s : Working 64) : Nat → Working 64
  | 0 => s
  | t + 1 => sha2Round sha2Core64 (zeroSets64 s t) (k64.getD t 0, 0)

/-- The block of zeros, the zero schedule and the working sets above, from any state. -/
theorem witness_Compress32RunsTheRounds (h : Vector Word64 8) :
    ∃ (blk : List Byte) (W : Nat → Word32) (S : Nat → Working 32), blk.length = 64 ∧
      (∀ i, i < 16 → W i = BitVec.ofNat 32 (be ((blk.drop (4 * i)).take 4))) ∧
      (∀ t, 16 ≤ t → t < 64 → W t = W (t - 16) +
        ((W (t - 15)).rotateRight 7 ^^^ (W (t - 15)).rotateRight 18 ^^^ (W (t - 15)) >>> 3) + W (t - 7) +
        ((W (t - 2)).rotateRight 17 ^^^ (W (t - 2)).rotateRight 19 ^^^ (W (t - 2)) >>> 10)) ∧
      S 0 = ⟨h[0].setWidth 32, h[1].setWidth 32, h[2].setWidth 32, h[3].setWidth 32,
        h[4].setWidth 32, h[5].setWidth 32, h[6].setWidth 32, h[7].setWidth 32⟩ ∧
      ∀ t T1 T2, t < 64 →
        T1 = (S t).h + ((S t).e.rotateRight 6 ^^^ (S t).e.rotateRight 11 ^^^ (S t).e.rotateRight 25) +
          (((S t).e &&& (S t).f) ^^^ (~~~(S t).e &&& (S t).g)) + k32.getD t 0 + W t →
        T2 = ((S t).a.rotateRight 2 ^^^ (S t).a.rotateRight 13 ^^^ (S t).a.rotateRight 22) +
          (((S t).a &&& (S t).b) ^^^ ((S t).a &&& (S t).c) ^^^ ((S t).b &&& (S t).c)) →
        S (t + 1) = ⟨T1 + T2, (S t).a, (S t).b, (S t).c, (S t).d + T1, (S t).e, (S t).f, (S t).g⟩ := by
  refine ⟨zeros 64, fun _ => 0, zeroSets32 (loadWorking32 h), zeros_length 64, by decide +kernel,
    fun _ _ _ => by simp, rfl, ?_⟩
  rintro t _ _ - rfl rfl
  simp only [zeroSets32, sha2Round, sha2Core32, bigSigma, ch, maj,
    rotr_eq_rotateRight _ (show 2 < 32 by omega), rotr_eq_rotateRight _ (show 6 < 32 by omega),
    rotr_eq_rotateRight _ (show 11 < 32 by omega), rotr_eq_rotateRight _ (show 13 < 32 by omega),
    rotr_eq_rotateRight _ (show 22 < 32 by omega), rotr_eq_rotateRight _ (show 25 < 32 by omega)]

theorem witness_Compress64RunsTheRounds (h : Vector Word64 8) :
    ∃ (blk : List Byte) (W : Nat → Word64) (S : Nat → Working 64), blk.length = 128 ∧
      (∀ i, i < 16 → W i = BitVec.ofNat 64 (be ((blk.drop (8 * i)).take 8))) ∧
      (∀ t, 16 ≤ t → t < 80 → W t = W (t - 16) +
        ((W (t - 15)).rotateRight 1 ^^^ (W (t - 15)).rotateRight 8 ^^^ (W (t - 15)) >>> 7) + W (t - 7) +
        ((W (t - 2)).rotateRight 19 ^^^ (W (t - 2)).rotateRight 61 ^^^ (W (t - 2)) >>> 6)) ∧
      S 0 = ⟨h[0], h[1], h[2], h[3], h[4], h[5], h[6], h[7]⟩ ∧
      ∀ t T1 T2, t < 80 →
        T1 = (S t).h + ((S t).e.rotateRight 14 ^^^ (S t).e.rotateRight 18 ^^^ (S t).e.rotateRight 41) +
          (((S t).e &&& (S t).f) ^^^ (~~~(S t).e &&& (S t).g)) + k64.getD t 0 + W t →
        T2 = ((S t).a.rotateRight 28 ^^^ (S t).a.rotateRight 34 ^^^ (S t).a.rotateRight 39) +
          (((S t).a &&& (S t).b) ^^^ ((S t).a &&& (S t).c) ^^^ ((S t).b &&& (S t).c)) →
        S (t + 1) = ⟨T1 + T2, (S t).a, (S t).b, (S t).c, (S t).d + T1, (S t).e, (S t).f, (S t).g⟩ := by
  refine ⟨zeros 128, fun _ => 0, zeroSets64 (loadWorking64 h), zeros_length 128, by decide +kernel,
    fun _ _ _ => by simp, rfl, ?_⟩
  rintro t _ _ - rfl rfl
  simp only [zeroSets64, sha2Round, sha2Core64, bigSigma, ch, maj,
    rotr_eq_rotateRight _ (show 14 < 64 by omega), rotr_eq_rotateRight _ (show 18 < 64 by omega),
    rotr_eq_rotateRight _ (show 28 < 64 by omega), rotr_eq_rotateRight _ (show 34 < 64 by omega),
    rotr_eq_rotateRight _ (show 39 < 64 by omega), rotr_eq_rotateRight _ (show 41 < 64 by omega)]

/-- The function of each number (43_ripemd160.md R241 to R245). -/
def numbered (n : Nat) : Word32 → Word32 → Word32 → Word32 :=
  if n = 1 then f1 else if n = 2 then f2 else if n = 3 then f3 else if n = 4 then f4 else f5

/-- The reading of a table by rounds. -/
def readRow (tab : List (List Nat)) (j : Nat) : Nat := (tab.getD (j / 16) []).getD (j % 16) 0

/-- A path whose round `j` mixes its words by `mix j`. -/
def mixedPath (mix : Nat → Path → Word32) (s : Path) : Nat → Path
  | 0 => s
  | j + 1 => ⟨(mixedPath mix s j).e, mix j (mixedPath mix s j) + (mixedPath mix s j).e,
      (mixedPath mix s j).b, (mixedPath mix s j).c.rotateLeft 10, (mixedPath mix s j).d⟩

theorem mixedPath_zero (mix : Nat → Path → Word32) (s : Path) : mixedPath mix s 0 = s := rfl

/-- The words, functions, table readings and paths that the statement speaks of exist for the block of
zeros, from any state. -/
theorem witness_Compress160RunsBothPaths (h : Vector Word64 8) :
    ∃ (blk : List Byte) (X : Nat → Word32) (L R : Nat → Path)
      (F : Nat → Word32 → Word32 → Word32 → Word32) (rowNat : List (List Nat) → Nat → Nat),
      blk.length = 64 ∧
      (∀ i, i < 16 → X i = BitVec.ofNat 32 (le ((blk.drop (4 * i)).take 4))) ∧
      (∀ x y z, F 1 x y z = x ^^^ y ^^^ z ∧ F 2 x y z = (x &&& y) ||| (~~~x &&& z) ∧
        F 3 x y z = (x ||| ~~~y) ^^^ z ∧ F 4 x y z = (x &&& z) ||| (y &&& ~~~z) ∧
        F 5 x y z = x ^^^ (y ||| ~~~z)) ∧
      (∀ tab j, rowNat tab j = (tab.getD (j / 16) []).getD (j % 16) 0) ∧
      L 0 = ⟨h[0].setWidth 32, h[1].setWidth 32, h[2].setWidth 32, h[3].setWidth 32, h[4].setWidth 32⟩ ∧
      R 0 = L 0 ∧
      (∀ j, j < 80 → L (j + 1) = ⟨(L j).e,
        ((L j).a + F (j / 16 + 1) (L j).b (L j).c (L j).d + X (rowNat selLeft j) +
          addLeft.getD (j / 16) 0).rotateLeft (rowNat rotLeft j) + (L j).e,
        (L j).b, (L j).c.rotateLeft 10, (L j).d⟩) ∧
      ∀ j, j < 80 → R (j + 1) = ⟨(R j).e,
        ((R j).a + F (5 - j / 16) (R j).b (R j).c (R j).d + X (rowNat selRight j) +
          addRight.getD (j / 16) 0).rotateLeft (rowNat rotRight j) + (R j).e,
        (R j).b, (R j).c.rotateLeft 10, (R j).d⟩ := by
  refine ⟨zeros 64, fun _ => 0,
    mixedPath (fun j p => (p.a + numbered (j / 16 + 1) p.b p.c p.d + 0 + addLeft.getD (j / 16) 0).rotateLeft
      (readRow rotLeft j)) (loadPath h),
    mixedPath (fun j p => (p.a + numbered (5 - j / 16) p.b p.c p.d + 0 + addRight.getD (j / 16) 0).rotateLeft
      (readRow rotRight j)) (loadPath h),
    numbered, readRow, zeros_length 64, by decide +kernel, fun _ _ _ => ⟨rfl, rfl, rfl, rfl, rfl⟩,
    fun _ _ => rfl, rfl, (mixedPath_zero _ _).trans (mixedPath_zero _ _).symm, fun _ _ => rfl,
    fun _ _ => rfl⟩

/-- INIT of another algorithm, and COMPRESS. -/
theorem witness_HashStateChangesInTwoWays :
    (live .sha224 [0x01, 0, 0, 2]).Inv ∧ (live .sha256 ([0x04, 0, 0, 0x40] ++ zeros 64)).Inv ∧
      (after (step (live .sha224 [0x01, 0, 0, 2])) fun t => decide (t.h ≠ ivSha224)) = some true ∧
      (after (step (live .sha256 ([0x04, 0, 0, 0x40] ++ zeros 64))) fun t => decide (t.h ≠ ivSha256))
        = some true := by
  refine ⟨live_inv _ _, live_inv _ _, ?_, ?_⟩
  · decide +kernel
  · decide +kernel

/-- Steps that keep the phase and that fault on a header and on a command, and the operands of each
command that takes a transition. -/
theorem witness_PhaseTransitions :
    (∃ t, step (live .sha256 [0x06, 0, 0, 0]) = .next t) ∧
      (after (step (live .sha256 [0x07, 0, 0, 0])) State.phase) = some .faulted ∧
      (after (step { State.reset with input := [0x05, 0, 0, 0] }) State.phase) = some .faulted ∧ State.reset.phase ≠ .faulted ∧
      (live .sha256 []).Live .sha256 ∧ (live .sha256 []).len.toNat + abc.length < 2 ^ 61 ∧
      (zeros 64).length = blockBytes .sha256 :=
  ⟨step_next_of_inv (live_inv _ _), by decide, by decide, by decide, live_live _ _, by decide,
    zeros_length 64⟩

theorem witness_AlgorithmAndLengthRules : ∃ t, step (live .sha256 [0x02, 0, 0, 1, 0x61]) = .next t :=
  step_next_of_inv (live_inv _ _)

theorem witness_ResponsesOnlyGrow :
    (after (step (live .sha256 [0x06, 0, 0, 0])) State.resp) = some [0, 0, 0, 0x21] := by decide

theorem witness_StepKeepsInvariant :
    (live .sha256 [0x03, 0, 0, 0]).Inv ∧ ∃ t, step (live .sha256 [0x03, 0, 0, 0]) = .next t :=
  ⟨live_inv _ _, step_next_of_inv (live_inv _ _)⟩

theorem witness_EveryRunIsSafe :
    (live .ripemd160 []).Inv ∧ ∃ t, (live .ripemd160 []).events [.write [9, 9, 9, 9], .step] = .next t :=
  ⟨live_inv _ _, _, rfl⟩

/-- The state the third clause speaks of, and a step that stops there. -/
theorem witness_StepStopsOnlyWithoutAlgorithm :
    ∃ s : State, s.phase = .fresh ∧ s.alg = none ∧ step s = .fault .algUnset :=
  ⟨{ live .sha256 [0x03, 0, 0, 0] with alg := none }, rfl, rfl, rfl⟩

/-- Two states that differ in the last byte of BUF. -/
theorem witness_BufTailIsUnobservable :
    (live .sha256 []).Inv ∧
      (live .sha256 []).SameButBufTail
        { live .sha256 [] with buf := writeBuf (live .sha256 []).buf 127 [0xff] } ∧
      writeBuf (live .sha256 []).buf 127 [0xff] ≠ (live .sha256 []).buf :=
  ⟨live_inv _ _, ⟨rfl, by decide +kernel⟩, by decide +kernel⟩

/-- "abc" in two pieces, by three commands and a STATUS behind them. -/
theorem witness_CommandsComputeTheDigest :
    ∃ s : State, s.phase ≠ .faulted ∧ (∀ d ∈ [[(0x61 : Byte)], [0x62, 0x63]], d.length < 2 ^ 24) ∧
      [[(0x61 : Byte)], [0x62, 0x63]].flatten.length < 2 ^ 61 ∧
      LeastPadding .sha256 [[(0x61 : Byte)], [0x62, 0x63]].flatten.length 52 ∧
      s.input = (.init .sha256 :: [[(0x61 : Byte)], [0x62, 0x63]].map .update ++ [.final] : List Instr).flatMap
        encode ++ [0x06, 0, 0, 0] := by
  refine ⟨{ State.reset with input := [0x01, 0, 0, 2, 0x02, 0, 0, 1, 0x61, 0x02, 0, 0, 2, 0x62, 0x63, 0x03, 0,
    0, 0, 0x06, 0, 0, 0] }, by decide, by decide, by decide, ?_, by decide⟩
  rw [leastPadding_iff]
  decide

theorem witness_LongUpdateExpansion :
    (live .sha256 []).Live .sha256 ∧
      (live .sha256 []).len.toNat + (zeros (2 ^ 24)).length < 2 ^ 61 := by
  rw [zeros_length]
  exact ⟨live_live _ _, by decide⟩

theorem witness_HashBlockExpansion :
    State.reset.phase ≠ .faulted ∧ (zeros 128).length = blockBytes .sha512t256 :=
  ⟨by decide, zeros_length 128⟩

end Sys2Proof.Machine
end

section
/-! SUPPORT. What a command and a step can do as named cases, and what each case leaves in the registers
that the rules of 10_state.md speak of. -/

namespace Sys2Proof.Machine

/-! ### The cases of a command and of a step -/

/-- The ways in which a command answers a next state; `execCase_of_next` says there are no others. -/
inductive ExecCase (s : State) : Instr → State → Prop
  /-- 60_exceptions.md R346. -/
  | discarded {i : Instr} (hp : s.phase = .faulted) (hi : i ≠ .status) : ExecCase s i s
  /-- 60_exceptions.md R343. -/
  | raised {i : Instr} {c : FaultCode} (hp : s.phase ≠ .faulted) (hinit : ∀ a, i ≠ .init a)
      (hstatus : i ≠ .status) : ExecCase s i (s.raiseFault c)
  /-- 44_digest_facade.md R310. -/
  | init {a : Alg} (hp : s.phase ≠ .faulted) : ExecCase s (.init a) (freshInstance a s)
  /-- 44_digest_facade.md R314. -/
  | update {a : Alg} {data : List Byte} (hl : s.Live a)
      (hn : s.len.toNat + data.length < lengthLimit) :
      ExecCase s (.update data) (afterUpdate a data s)
  /-- 44_digest_facade.md R318. -/
  | final {a : Alg} (hl : s.Live a) : ExecCase s .final (afterFinal a s)
  /-- 44_digest_facade.md R322. -/
  | compress {a : Alg} {data : List Byte} (hl : s.Live a) (hb : data.length = blockBytes a) :
      ExecCase s (.compress data) (afterCompress a data s)
  /-- 44_digest_facade.md R326. -/
  | readState {a : Alg} (hl : s.Live a) : ExecCase s .readState (s.emit (serialize a s.h))
  /-- 44_digest_facade.md R330. -/
  | status : ExecCase s .status (s.emit (toBE s.statusWord.toNat 4))

theorem execCase_of_next {i : Instr} {s t : State} (h : exec i s = .next t) : ExecCase s i t := by
  rcases exec_eq_next h with ⟨hp, hi, rfl⟩ | ⟨hp, hi, hs, c, rfl⟩ | ⟨a, rfl, hp, rfl⟩ |
    ⟨a, d, rfl, hl, hn, rfl⟩ | ⟨a, rfl, hl, rfl⟩ | ⟨a, d, rfl, hl, hb, rfl⟩ | ⟨a, rfl, hl, rfl⟩ |
    ⟨rfl, rfl⟩
  · exact .discarded hp hi
  · exact .raised hp hi hs
  · exact .init hp
  · exact .update hl hn
  · exact .final hl
  · exact .compress hl hb
  · exact .readState hl
  · exact .status

/-- The ways in which a step answers a next state; `stepCase_of_next` says there are no others. -/
inductive StepCase (s : State) : State → Prop
  /-- 70_reset_and_hazards.md R392. -/
  | waits (hd : decode s.input = .incomplete) : StepCase s s
  /-- 30_encoding.md R94. -/
  | illegal {f : Framed} {c : FaultCode} (hd : decode s.input = .illegal c f.rest) :
      StepCase s ((s.pastCommand f).raiseFault c)
  /-- 44_digest_facade.md R281. -/
  | command {f : Framed} {i : Instr} {t : State} (hd : decode s.input = .command i f.rest)
      (hx : ExecCase (s.pastCommand f) i t) : StepCase s t

theorem stepCase_of_next {s t : State} (h : step s = .next t) : StepCase s t := by
  rcases step_cases h with ⟨hf, rfl⟩ | ⟨f, c, hf, hd, rfl⟩ | ⟨f, i, hf, hd, hx⟩
  · exact .waits (decode_eq_incomplete.mpr hf)
  · exact .illegal (decode_eq_illegal.mpr ⟨f, hf, hd, rfl⟩)
  · exact .command (decode_eq_command.mpr ⟨f, hf, hd, rfl⟩) (execCase_of_next hx)

/-! ### What the cases leave in the registers -/

theorem afterUpdate_alg (a : Alg) (d : List Byte) (s : State) : (afterUpdate a d s).alg = s.alg := by
  rw [afterUpdate_eq]

theorem afterUpdate_fcode (a : Alg) (d : List Byte) (s : State) :
    (afterUpdate a d s).fcode = s.fcode := by rw [afterUpdate_eq]

theorem afterUpdate_resp (a : Alg) (d : List Byte) (s : State) : (afterUpdate a d s).resp = s.resp := by
  rw [afterUpdate_eq]

theorem afterFinal_alg (a : Alg) (s : State) : (afterFinal a s).alg = s.alg := by rw [afterFinal_eq]

theorem afterFinal_len (a : Alg) (s : State) : (afterFinal a s).len = s.len := by rw [afterFinal_eq]

theorem afterFinal_fcode (a : Alg) (s : State) : (afterFinal a s).fcode = s.fcode := by
  rw [afterFinal_eq]

theorem afterFinal_resp (a : Alg) (s : State) :
    (afterFinal a s).resp = s.resp ++ digest a (s.finish a).h := by rw [afterFinal_eq]

theorem raiseFault_fcode_ne_none {s : State} (h : s.phase ≠ .faulted) (c : FaultCode) :
    (s.raiseFault c).fcode ≠ none := by simp [raiseFault_fcode_of_ne h]

theorem raiseFault_pending (c : FaultCode) (s : State) : (s.raiseFault c).pending = s.pending := by
  simp [State.pending]

end Sys2Proof.Machine
end

section
/-! PROOFS. The invariant of 10_state.md R43: reset meets it and every step keeps it. -/

namespace Sys2Proof.Machine

theorem exec_inv {i : Instr} {s t : State} (hi : s.Inv) (hx : ExecCase s i t) : t.Inv := by
  cases hx with
  | discarded _ _ => exact hi
  | raised _ _ _ => exact raiseFault_inv hi _
  | init hp => exact freshInstance_inv hi hp _
  | update hl hn => exact afterUpdate_inv hi hl _ hn
  | final hl => exact afterFinal_inv hi hl
  | compress hl _ => exact afterCompress_inv hi hl _
  | readState _ => exact emit_inv hi _
  | status => exact emit_inv hi _

/-- Settles O41: each case of a step keeps the invariant. -/
theorem stepKeepsInvariant : Obligations.StepKeepsInvariant := by
  intro s t hi h
  cases stepCase_of_next h with
  | waits _ => exact hi
  | illegal _ => exact raiseFault_inv (pastCommand_inv hi _) _
  | command _ hx => exact exec_inv (pastCommand_inv hi _) hx

/-- Settles O40: after reset the items of Idle hold, and no algorithm is selected. -/
theorem resetMeetsInvariant : Obligations.ResetMeetsInvariant where
  items := ⟨.idle, by simp, fun _ => rfl,
    { idle := fun _ => ⟨rfl, rfl, rfl⟩
      hasAlg := by simp
      fresh := by simp
      finalized := by simp
      plenLt := by simp
      plenMod := by simp }⟩
  fcode := by simp
  lenLe := by simp
  unused := by simp

/-- Settles O16: the state after reset is a constant, so its registers are read off it. -/
theorem resetValues : Obligations.ResetValues :=
  fun _ => ⟨State.reset, rfl, rfl, rfl, rfl, rfl, rfl, rfl, rfl, rfl, by decide⟩

end Sys2Proof.Machine
end

section
/-! PROOFS. Who writes FCODE, PHASE, ALG, LEN, RESP and H (10_state.md R32, R35 to R38, R41). -/

namespace Sys2Proof.Machine

/-! ### FCODE -/

/-- A command changes FCODE only by raising a fault. -/
theorem exec_fcode {i : Instr} {s t : State} (hx : ExecCase s i t) :
    t.fcode = s.fcode ∨ s.phase ≠ .faulted ∧ t.phase = .faulted ∧ t.fcode ≠ none := by
  cases hx with
  | discarded _ _ => exact .inl rfl
  | raised hp _ _ => exact .inr ⟨hp, raiseFault_phase _ _, raiseFault_fcode_ne_none hp _⟩
  | init _ => exact .inl rfl
  | update _ _ => exact .inl (afterUpdate_fcode _ _ _)
  | final _ => exact .inl (afterFinal_fcode _ _)
  | compress _ _ => exact .inl rfl
  | readState _ => exact .inl rfl
  | status => exact .inl rfl

/-- Settles O15: an illegal header raises a fault unless the phase is Faulted already, and a command
changes FCODE only by raising one. -/
theorem faultCodeIsWrittenOnlyByFaults : Obligations.FaultCodeIsWrittenOnlyByFaults := by
  intro s t h hne
  cases stepCase_of_next h with
  | waits _ => exact absurd rfl hne
  | @illegal f c _ =>
    have hp : s.phase ≠ .faulted := by
      intro hf
      rw [raiseFault_of_faulted (s := s.pastCommand f) hf] at hne
      exact hne rfl
    exact ⟨hp, raiseFault_phase _ _, raiseFault_fcode_ne_none (s := s.pastCommand f) hp c⟩
  | command _ hx => exact (exec_fcode hx).resolve_left hne

/-! ### PHASE -/

/-- The commands that the phase checks of 60_exceptions.md R342 apply to. -/
theorem phaseChecked_of_ne {i : Instr} (hinit : ∀ a, i ≠ .init a) (hstatus : i ≠ .status) :
    (∃ d, i = .update d) ∨ i = .final ∨ (∃ d, i = .compress d) ∨ i = .readState := by
  cases i with
  | init a => exact absurd rfl (hinit a)
  | update d => exact .inl ⟨d, rfl⟩
  | final => exact .inr (.inl rfl)
  | compress d => exact .inr (.inr (.inl ⟨d, rfl⟩))
  | readState => exact .inr (.inr (.inr rfl))
  | status => exact absurd rfl hstatus

/-- Settles O37: each case of a step is one of the transitions, and the live commands that raise no
fault are the cases that take them. -/
theorem phaseTransitions : Obligations.PhaseTransitions := by
  refine ⟨?_, fun s a hp => ⟨_, execInit_of_ne hp a, rfl⟩, ?_, fun s => ⟨_, rfl, rfl⟩⟩
  · intro s t h
    cases stepCase_of_next h with
    | waits hd => exact .inr (.inr (.inr (.inr ⟨rfl, .inr (.inl hd)⟩)))
    | @illegal f c hd =>
      have hphase := raiseFault_phase c (s.pastCommand f)
      by_cases hp : s.phase = .faulted
      · exact .inr (.inr (.inr (.inr ⟨hphase.trans hp.symm, .inl hp⟩)))
      · exact .inr (.inr (.inr (.inl ⟨hphase, hp,
          raiseFault_fcode_ne_none (s := s.pastCommand f) hp c, .inl ⟨c, f.rest, hd⟩⟩)))
    | command hd hx =>
      cases hx with
      | discarded hp _ => exact .inr (.inr (.inr (.inr ⟨rfl, .inl hp⟩)))
      | raised hp hinit hstatus =>
        exact .inr (.inr (.inr (.inl ⟨raiseFault_phase _ _, hp, raiseFault_fcode_ne_none hp _,
          .inr ⟨_, _, hd, phaseChecked_of_ne hinit hstatus⟩⟩)))
      | init hp => exact .inl ⟨rfl, hp, _, _, hd⟩
      | update hl _ => exact .inr (.inl ⟨rfl, hl.1, _, _, .inl hd⟩)
      | final hl => exact .inr (.inr (.inl ⟨rfl, hl.1, _, hd⟩))
      | compress hl _ => exact .inr (.inl ⟨rfl, hl.1, _, _, .inr hd⟩)
      | readState _ => exact .inr (.inr (.inr (.inr ⟨rfl, .inr (.inr ⟨_, .inl hd⟩)⟩)))
      | status => exact .inr (.inr (.inr (.inr ⟨rfl, .inr (.inr ⟨_, .inr hd⟩)⟩)))
  · intro s a d hl
    refine ⟨fun hn => ⟨_, execUpdate_ok hl hn, rfl⟩, fun hb => ?_, ⟨_, execFinal_of_live hl, rfl⟩⟩
    exact ⟨afterCompress a d s, by rw [execCompress_of_live hl, if_neg (not_not_intro hb)], rfl⟩

/-! ### ALG and LEN -/

/-- Settles O38: INIT is the only case that writes ALG, UPDATE the only other one that writes LEN. -/
theorem algorithmAndLengthRules : Obligations.AlgorithmAndLengthRules := by
  intro s t h
  cases stepCase_of_next h with
  | waits hd => exact .inr (.inr ⟨by simp [hd], by simp [hd], rfl, rfl⟩)
  | illegal hd => exact .inr (.inr ⟨by simp [hd], by simp [hd], by simp, by simp⟩)
  | command hd hx =>
    cases hx with
    | discarded hp _ => exact .inr (.inr ⟨fun _ _ _ => hp, fun _ _ _ => hp, rfl, rfl⟩)
    | raised _ hinit _ =>
      refine .inr (.inr ⟨fun _ _ _ => raiseFault_phase _ _, fun a rest h2 => ?_, by simp, by simp⟩)
      rw [hd] at h2
      cases h2
      exact absurd rfl (hinit a)
    | init hp => exact .inl ⟨_, _, hd, hp, rfl, rfl⟩
    | update _ hn =>
      refine .inr (.inl ⟨_, _, hd, rfl, afterUpdate_alg _ _ _, ?_⟩)
      rw [afterUpdate_len]
      exact len_add_toNat hn
    | final _ =>
      exact .inr (.inr ⟨by simp [hd], by simp [hd], afterFinal_alg _ _, afterFinal_len _ _⟩)
    | compress _ _ => exact .inr (.inr ⟨by simp [hd], by simp [hd], rfl, rfl⟩)
    | readState _ => exact .inr (.inr ⟨by simp [hd], by simp [hd], rfl, rfl⟩)
    | status => exact .inr (.inr ⟨by simp [hd], by simp [hd], rfl, rfl⟩)

/-! ### RESP -/

/-- A command appends to RESP, and only FINAL, READ_STATE and STATUS append bytes. -/
theorem exec_resp {i : Instr} {s t : State} (hx : ExecCase s i t) :
    t.resp = s.resp ∨ (∃ bs, t.resp = s.resp ++ bs) ∧ (i = .final ∨ i = .readState ∨ i = .status) := by
  cases hx with
  | discarded _ _ => exact .inl rfl
  | raised _ _ _ => exact .inl (raiseFault_resp _ _)
  | init _ => exact .inl rfl
  | update _ _ => exact .inl (afterUpdate_resp _ _ _)
  | final _ => exact .inr ⟨⟨_, afterFinal_resp _ _⟩, .inl rfl⟩
  | compress _ _ => exact .inl rfl
  | readState _ => exact .inr ⟨⟨_, emit_resp _ _⟩, .inr (.inl rfl)⟩
  | status => exact .inr ⟨⟨_, emit_resp _ _⟩, .inr (.inr rfl)⟩

/-- Settles O39: a wait and an illegal header keep RESP, and a command only appends. -/
theorem responsesOnlyGrow : Obligations.ResponsesOnlyGrow := by
  intro s t h
  have kept : t.resp = s.resp → ∃ bs, t.resp = s.resp ++ bs ∧
      (bs ≠ [] → ∃ i rest, decode s.input = .command i rest ∧
        (i = .final ∨ i = .readState ∨ i = .status)) :=
    fun hr => ⟨[], by rw [hr, List.append_nil], fun hb => absurd rfl hb⟩
  cases stepCase_of_next h with
  | waits _ => exact kept rfl
  | illegal _ => exact kept (raiseFault_resp _ _)
  | command hd hx =>
    rcases exec_resp hx with hr | ⟨⟨bs, hr⟩, hi⟩
    · exact kept hr
    · exact ⟨bs, hr, fun _ => ⟨_, _, hd, hi⟩⟩

/-! ### H -/

/-- A command keeps H, loads an initial value, or folds H over the blocks of some bytes. -/
theorem exec_h {i : Instr} {s t : State} (hi : s.Inv) (hx : ExecCase s i t) :
    t.h = s.h ∨ (∃ a, i = .init a ∧ t.h = initialValue a) ∨
      ((∃ d, i = .update d) ∨ i = .final ∨ ∃ d, i = .compress d) ∧
        ∃ a bs, s.alg = some a ∧ t.h = hashBlocks a s.h bs := by
  cases hx with
  | discarded _ _ => exact .inl rfl
  | raised _ _ _ => exact .inl (raiseFault_h _ _)
  | init _ => exact .inr (.inl ⟨_, rfl, rfl⟩)
  | update hl _ =>
    obtain ⟨hh, -⟩ := afterUpdate_spec (inv_plen_lt hi hl.2) _
    exact .inr (.inr ⟨.inl ⟨_, rfl⟩, _, _, hl.2, hh⟩)
  | @final a hl =>
    obtain ⟨z, hz⟩ := exists_leastPadding a s.plen.toNat
    obtain ⟨hh, -⟩ := finish_spec (inv_plen_lt hi hl.2) hz
    exact .inr (.inr ⟨.inr (.inl rfl), _, _, hl.2, hh⟩)
  | compress hl hb =>
    exact .inr (.inr ⟨.inr (.inr ⟨_, rfl⟩), _, _, hl.2, (hashBlocks_block hb s.h).symm⟩)
  | readState _ => exact .inl rfl
  | status => exact .inl rfl

/-- Settles O36: where the fold changes H, there is at least one block to fold over. -/
theorem hashStateChangesInTwoWays : Obligations.HashStateChangesInTwoWays := by
  intro s t hi h hne
  cases stepCase_of_next h with
  | waits _ => exact absurd rfl hne
  | illegal _ => exact absurd (raiseFault_h _ _) hne
  | @command f i _ hd hx =>
    refine ⟨i, f.rest, hd, ?_⟩
    rcases exec_h (pastCommand_inv hi f) hx with hh | hinit | ⟨hcmd, a, bs, ha, hh⟩
    · exact absurd hh hne
    · exact .inl hinit
    · have hblocks : blocksOf a bs ≠ [] := by
        intro h0
        rw [hashBlocks, h0] at hh
        exact hne hh
      exact .inr ⟨hcmd, a, blocksOf a bs, ha, hblocks, fun _ => mem_blocksOf_length, hh⟩

end Sys2Proof.Machine
end

section
/-! PROOFS. The status word in fields (10_state.md R39). -/

namespace Sys2Proof.Machine

/-- Which register each bit of the status word comes from. -/
theorem statusWord_getLsbD_fields (s : State) (i : Nat) : s.statusWord.getLsbD i =
    if i < 4 then (phaseCode s.phase).getLsbD i
    else if i < 8 then (algCode s.alg).getLsbD (i - 4)
    else if i < 16 then s.plen.getLsbD (i - 8)
    else if i < 20 then (fcodeValue s.fcode).getLsbD (i - 16)
    else false := by
  have hphase : 4 ≤ i → (phaseCode s.phase).getLsbD i = false :=
    fun h => BitVec.getLsbD_of_ge _ _ (by omega)
  have halg : 8 ≤ i → (algCode s.alg).getLsbD (i - 4) = false :=
    fun h => BitVec.getLsbD_of_ge _ _ (by omega)
  have hplen : 16 ≤ i → s.plen.getLsbD (i - 8) = false :=
    fun h => BitVec.getLsbD_of_ge _ _ (by omega)
  have hfcode : 20 ≤ i → (fcodeValue s.fcode).getLsbD (i - 16) = false :=
    fun h => BitVec.getLsbD_of_ge _ _ (by omega)
  rw [statusWord_getLsbD]
  split_ifs <;> grind

/-- A field of a word is the value whose bits stand there. -/
theorem extractLsb_eq_of_bits {x : Word32} {hi lo : Nat} {v : BitVec (hi - lo + 1)}
    (h : ∀ i, i < hi - lo + 1 → x.getLsbD (lo + i) = v.getLsbD i) : x.extractLsb hi lo = v := by
  apply BitVec.eq_of_getLsbD_eq
  intro i hi2
  rw [BitVec.getLsbD_extractLsb, h i hi2, decide_eq_true (by omega), Bool.true_and]

theorem statusWord_phase (s : State) : s.statusWord.extractLsb 2 0 = phaseCode s.phase := by
  apply extractLsb_eq_of_bits
  intro i hi
  rw [statusWord_getLsbD_fields, if_pos (by omega), Nat.zero_add]

theorem statusWord_alg (s : State) : s.statusWord.extractLsb 7 4 = algCode s.alg := by
  apply extractLsb_eq_of_bits
  intro i hi
  rw [statusWord_getLsbD_fields, if_neg (by omega), if_pos (by omega), Nat.add_sub_cancel_left]

theorem statusWord_plen (s : State) : s.statusWord.extractLsb 15 8 = s.plen := by
  apply extractLsb_eq_of_bits
  intro i hi
  rw [statusWord_getLsbD_fields, if_neg (by omega), if_neg (by omega), if_pos (by omega),
    Nat.add_sub_cancel_left]

theorem statusWord_fcode (s : State) : s.statusWord.extractLsb 19 16 = fcodeValue s.fcode := by
  apply extractLsb_eq_of_bits
  intro i hi
  rw [statusWord_getLsbD_fields, if_neg (by omega), if_neg (by omega), if_neg (by omega),
    if_pos (by omega), Nat.add_sub_cancel_left]

theorem statusWord_reserved (s : State) : s.statusWord.extractLsb 31 20 = 0 := by
  apply extractLsb_eq_of_bits
  intro i hi
  rw [statusWord_getLsbD_fields, if_neg (by omega), if_neg (by omega), if_neg (by omega),
    if_neg (by omega)]
  exact BitVec.getLsbD_zero.symm

/-- Settles O28: each field is its register's code, and the codes are those of R36, R37 and R341. -/
theorem statusWordFields : Obligations.StatusWordFields := by
  intro s
  refine ⟨?_, ?_, ?_, statusWord_plen s, ?_, statusWord_reserved s⟩
  · rw [statusWord_phase]
    cases s.phase <;> rfl
  · rw [statusWord_getLsbD_fields, if_pos (by decide)]
    exact BitVec.getLsbD_of_ge _ _ (by decide)
  · rw [statusWord_alg]
    cases s.alg with
    | none => rfl
    | some a => cases a <;> rfl
  · rw [statusWord_fcode]
    cases s.fcode with
    | none => rfl
    | some c => cases c <;> rfl

end Sys2Proof.Machine
end

section
/-! PROOFS. Where the model stops (10_state.md R43, log entry 6). -/

namespace Sys2Proof.Machine

/-- The state that items 3 and 6 of R43 rule out: a live phase, and no algorithm. -/
def State.NoAlgorithm (s : State) : Prop := (s.phase = .fresh ∨ s.phase = .updating) ∧ s.alg = none

theorem not_inv_of_noAlgorithm {s : State} (h : s.NoAlgorithm) : ¬s.Inv :=
  fun hi => inv_alg_ne_none hi h.1 h.2

theorem withInstance_of_noAlgorithm {s : State} (h : s.NoAlgorithm) (c : FaultCode)
    (body : Alg → State) : s.withInstance c body = .fault .algUnset := by
  obtain ⟨hp | hp, ha⟩ := h <;> simp [State.withInstance, hp, ha]

/-- A command answers a next state or stops by name, in the one kind of state where it may. -/
theorem exec_next_or_stops (i : Instr) (s : State) :
    (∃ t, exec i s = .next t) ∨ exec i s = .fault .algUnset ∧ s.NoAlgorithm := by
  by_cases h : s.NoAlgorithm
  · cases i with
    | init a =>
      have hp : s.phase ≠ .faulted := by obtain ⟨hp | hp, -⟩ := h <;> simp [hp]
      exact .inl ⟨_, execInit_of_ne hp a⟩
    | update d => exact .inr ⟨withInstance_of_noAlgorithm h _ _, h⟩
    | final => exact .inr ⟨withInstance_of_noAlgorithm h _ _, h⟩
    | compress d => exact .inr ⟨withInstance_of_noAlgorithm h _ _, h⟩
    | readState => exact .inr ⟨withInstance_of_noAlgorithm h _ _, h⟩
    | status => exact .inl ⟨_, execStatus_eq s⟩
  · exact .inl (exec_next (fun hp ha => h ⟨hp, ha⟩) i)

theorem step_next_or_stops (s : State) :
    (∃ t, step s = .next t) ∨ step s = .fault .algUnset ∧ s.NoAlgorithm := by
  cases hf : frame s.input with
  | none => exact .inl ⟨_, step_of_incomplete hf⟩
  | some f =>
    cases hd : decodeCommand f.hdr f.data with
    | error c => exact .inl ⟨_, step_of_error hf hd⟩
    | ok i =>
      rw [step_of_ok hf hd]
      exact exec_next_or_stops i (s.pastCommand f)

/-- Settles O43: `step_next_or_stops` leaves no other outcome, and the four commands do stop there. -/
theorem stepStopsOnlyWithoutAlgorithm : Obligations.StepStopsOnlyWithoutAlgorithm := by
  refine ⟨fun s r h => ?_, fun s r h => ?_, fun s d i hp ha hi => ?_⟩
  · rcases step_next_or_stops s with ⟨t, ht⟩ | ⟨hs, -⟩
    · rw [ht] at h
      cases h
    · rw [hs] at h
      cases h
  · rcases step_next_or_stops s with ⟨t, ht⟩ | ⟨hs, hno⟩
    · rw [ht] at h
      cases h
    · rw [hs] at h
      cases h
      exact ⟨rfl, hno.1, hno.2, not_inv_of_noAlgorithm hno⟩
  · rcases hi with rfl | rfl | rfl | rfl <;> exact withInstance_of_noAlgorithm ⟨hp, ha⟩ _ _

end Sys2Proof.Machine
end

section
/-! PROOFS. The bytes of BUF at and above PLEN (10_state.md R34). -/

namespace Sys2Proof.Machine

/-- A command that selects no algorithm has left H and the pending bytes alone. -/
theorem exec_h_pending_of_alg_none {i : Instr} {s t : State} (hx : ExecCase s i t)
    (ha : t.alg = none) : t.h = s.h ∧ t.pending = s.pending := by
  cases hx with
  | discarded _ _ => exact ⟨rfl, rfl⟩
  | raised _ _ _ => exact ⟨raiseFault_h _ _, raiseFault_pending _ _⟩
  | init _ => cases ha
  | update hl _ => simp [afterUpdate_alg, hl.2] at ha
  | final hl => simp [afterFinal_alg, hl.2] at ha
  | compress hl _ => exact absurd (hl.2.symm.trans ha) (by simp)
  | readState _ => exact ⟨rfl, rfl⟩
  | status => exact ⟨rfl, rfl⟩

/-- Two states that differ only in unobservable bytes, and agree in H and the pending bytes also where
no algorithm is selected, differ only in bytes of BUF at and above PLEN. -/
theorem sameButBufTail_of_sameObservable {s t : State} (h : s.SameObservable t)
    (hnone : s.alg = none → t.h = s.h ∧ t.pending = s.pending) : s.SameButBufTail t := by
  obtain ⟨hst, hsome⟩ := h
  have hboth : t.h = s.h ∧ t.pending = s.pending := by
    cases ha : s.alg with
    | none => exact hnone ha
    | some a => exact hsome a ha
  obtain ⟨hh, hp⟩ := hboth
  rw [hh] at hst
  exact ⟨hst, hp⟩

section
variable {s t : State} (h : s.SameButBufTail t)
include h

theorem sameButBufTail_h : t.h = s.h := by rw [h.1]

theorem sameButBufTail_input : t.input = s.input := by rw [h.1]

theorem sameObservable_of_sameButBufTail : s.SameObservable t := by
  refine ⟨?_, fun _ _ => ⟨sameButBufTail_h h, h.2⟩⟩
  rw [sameButBufTail_h h]
  exact h.1

theorem pastCommand_sameButBufTail (f : Framed) :
    (s.pastCommand f).SameButBufTail (t.pastCommand f) := by
  refine ⟨?_, h.2⟩
  conv_lhs => rw [h.1]
  rfl

theorem raiseFault_sameButBufTail (c : FaultCode) :
    (s.raiseFault c).SameButBufTail (t.raiseFault c) := by
  obtain ⟨hst, hp⟩ := h
  refine ⟨?_, by rw [raiseFault_pending, raiseFault_pending, hp]⟩
  rw [raiseFault_buf, raise_comm s (fun u => { u with buf := t.buf }) c (fun _ => rfl)
    (fun _ _ _ => rfl), ← hst]

/-- A command takes two such states to two such states. -/
theorem exec_sameButBufTail {i : Instr} {s' : State} (hi : s.Inv) (hs : exec i s = .next s') :
    ∃ t', exec i t = .next t' ∧ s'.SameButBufTail t' := by
  obtain ⟨t', ht, hobs⟩ := exec_sameObservable hi (sameObservable_of_sameButBufTail h) hs
  refine ⟨t', ht, sameButBufTail_of_sameObservable hobs fun ha => ?_⟩
  have ha' : t'.alg = none := by rw [hobs.1, ha]
  obtain ⟨hh, hp⟩ := exec_h_pending_of_alg_none (execCase_of_next hs) ha
  obtain ⟨hh', hp'⟩ := exec_h_pending_of_alg_none (execCase_of_next ht) ha'
  exact ⟨by rw [hh', hh, sameButBufTail_h h], by rw [hp', hp, h.2]⟩

end

/-- Settles O44: both states meet the same command, and each case of the step keeps the difference
within the bytes at and above PLEN. -/
theorem bufTailIsUnobservable : Obligations.BufTailIsUnobservable := by
  intro s t hi h
  have hin := sameButBufTail_input h
  cases hf : frame s.input with
  | none => exact ⟨s, t, step_of_incomplete hf, step_of_incomplete (hin ▸ hf), h⟩
  | some f =>
    have hf' : frame t.input = some f := hin ▸ hf
    have hpast := pastCommand_sameButBufTail h f
    cases hd : decodeCommand f.hdr f.data with
    | error c =>
      exact ⟨_, _, step_of_error hf hd, step_of_error hf' hd, raiseFault_sameButBufTail hpast c⟩
    | ok i =>
      obtain ⟨s', hs⟩ := step_next_of_inv hi
      have hexec := hs
      rw [step_of_ok hf hd] at hexec
      obtain ⟨t', ht, hst⟩ := exec_sameButBufTail hpast (pastCommand_inv hi f) hexec
      exact ⟨s', t', hs, (step_of_ok hf' hd).trans ht, hst⟩

end Sys2Proof.Machine
end

section
/-! PROOFS. The command stream and repeated commands (20_memory.md R62, R74, R77). -/

namespace Sys2Proof.Machine

/-! ### Bytes behind a whole command -/

theorem pastCommand_hostWrite (s : State) (f : Framed) (bs : List Byte) :
    (s.hostWrite bs).pastCommand { f with rest := f.rest ++ bs } = (s.pastCommand f).hostWrite bs := rfl

theorem raiseFault_hostWrite (s : State) (c : FaultCode) (bs : List Byte) :
    (s.hostWrite bs).raiseFault c = (s.raiseFault c).hostWrite bs :=
  (raise_comm s (State.hostWrite bs) c (fun _ => rfl) (fun _ _ _ => rfl)).symm

/-- Settles O9: the command cut off the longer stream is the same, and neither its fault nor its meaning
reads what stands behind it. -/
theorem laterBytesDoNotMatter : Obligations.LaterBytesDoNotMatter := by
  intro s t bs hne h
  rcases step_cases h with ⟨hf, -⟩ | ⟨f, c, hf, hd, rfl⟩ | ⟨f, i, hf, hd, hx⟩
  · exact absurd (decode_eq_incomplete.mpr hf) hne
  · rw [step_of_error (s := s.hostWrite bs) (frame_append hf bs) hd, pastCommand_hostWrite,
      raiseFault_hostWrite]
  · rw [step_of_ok (s := s.hostWrite bs) (frame_append hf bs) hd, pastCommand_hostWrite]
    exact exec_hostWrite bs hx

/-! ### Repeated commands -/

theorem execAll_pair {i j : Instr} {s t u : State} (hi : exec i s = .next t)
    (hj : exec j t = .next u) : execAll [i, j] s = .next u := by
  simp only [execAll, hi, hj]

theorem emit_emit (s : State) (b c : List Byte) : (s.emit b).emit c = s.emit (b ++ c) := by
  simp [State.emit]

theorem emit_live {a : Alg} {s : State} (h : s.Live a) (b : List Byte) : (s.emit b).Live a := h

/-- A command that emits the same bytes before and after its own answer answers twice alike. -/
theorem execAll_repeat_emit {i : Instr} {s : State} {b : List Byte} (h : exec i s = .next (s.emit b))
    (h' : exec i (s.emit b) = .next ((s.emit b).emit b)) :
    execAll [i, i] s = .next (s.emit (b ++ b)) := by
  rw [execAll_pair h h', emit_emit]

theorem execFinal_of_finalized {s : State} (h : s.phase = .finalized) :
    exec .final s = .next { s with phase := .faulted, fcode := some .doubleFinal } := by
  rw [← raiseFault_of_ne (by simp [h])]
  exact withInstance_of_finalized h _ _

/-- Settles O29: an answer leaves the registers it is made of, UPDATEs in a row are one UPDATE, and FINAL
leaves the Finalized phase. -/
theorem repeatedCommands : Obligations.RepeatedCommands := by
  refine ⟨fun s => ?_, fun s a hl => ?_, fun s a d hl hn => ?_, fun s a hl => ?_⟩
  · exact ⟨_, execStatus_eq s, execAll_repeat_emit (execStatus_eq s) (execStatus_eq _)⟩
  · exact ⟨_, execReadState_of_live hl,
      execAll_repeat_emit (execReadState_of_live hl) (execReadState_of_live (emit_live hl _))⟩
  · have hlen : s.len.toNat + (d ++ d).length < lengthLimit := by
      rw [List.length_append, ← Nat.two_mul]
      exact hn
    have htwo := execAll_updates hl d [d] (by simpa using hlen)
    exact ⟨afterUpdate a (d ++ d) s, by simpa using htwo, execUpdate_ok hl hlen⟩
  · exact ⟨_, execFinal_of_live hl, execAll_pair (execFinal_of_live hl) (execFinal_of_finalized rfl)⟩

end Sys2Proof.Machine
end

section
/-! PROOFS. What H and BUF hold after reset (10_state.md R44, 20_memory.md R78). -/

namespace Sys2Proof.Machine

/-- In Idle the invariant says nothing of H and BUF (10_state.md R43, item 2). -/
theorem inv_of_idle {s : State} (hp : s.phase = .idle) (ha : s.alg = none) (hplen : s.plen = 0)
    (hlen : s.len = 0) (hf : s.fcode = none) : s.Inv where
  items := ⟨.idle, by simp, fun _ => hp,
    { idle := fun _ => ⟨ha, hplen, hlen⟩
      hasAlg := by simp
      fresh := by simp
      finalized := by simp
      plenLt := by simp [ha]
      plenMod := by simp }⟩
  fcode := by simp [hp, hf]
  lenLe := by simp [hlen]
  unused := by simp [ha]

section
variable {s t : State} (h : s.SameObservable t)
include h

theorem sameObservable_input : t.input = s.input := by rw [h.1]

theorem sameObservable_resp : s.resp = t.resp := by rw [h.1]

theorem sameObservable_statusWord : s.statusWord = t.statusWord := by
  rw [h.1]
  rfl

theorem pastCommand_sameObservable (f : Framed) :
    (s.pastCommand f).SameObservable (t.pastCommand f) := by
  refine ⟨?_, h.2⟩
  conv_lhs => rw [h.1]
  rfl

theorem raiseFault_sameObservable (c : FaultCode) :
    (s.raiseFault c).SameObservable (t.raiseFault c) := by
  obtain ⟨hst, hsome⟩ := h
  refine ⟨?_, fun a ha => ?_⟩
  · rw [raiseFault_h, raiseFault_buf, raise_comm s (fun u => { u with h := t.h, buf := t.buf }) c
      (fun _ => rfl) (fun _ _ _ => rfl), ← hst]
  · rw [raiseFault_alg] at ha
    rw [raiseFault_h, raiseFault_h, raiseFault_pending, raiseFault_pending]
    exact hsome a ha

/-- A step takes two such states to two such states. -/
theorem step_sameObservable (hi : s.Inv) :
    ∃ s' t', step s = .next s' ∧ step t = .next t' ∧ s'.SameObservable t' := by
  have hin := sameObservable_input h
  cases hf : frame s.input with
  | none => exact ⟨s, t, step_of_incomplete hf, step_of_incomplete (hin ▸ hf), h⟩
  | some f =>
    have hf' : frame t.input = some f := hin ▸ hf
    have hpast := pastCommand_sameObservable h f
    cases hd : decodeCommand f.hdr f.data with
    | error c =>
      exact ⟨_, _, step_of_error hf hd, step_of_error hf' hd, raiseFault_sameObservable hpast c⟩
    | ok i =>
      obtain ⟨s', hs⟩ := step_next_of_inv hi
      obtain ⟨t', ht, hst⟩ :=
        exec_sameObservable (pastCommand_inv hi f) hpast ((step_of_ok hf hd).symm.trans hs)
      exact ⟨s', t', hs, (step_of_ok hf' hd).trans ht, hst⟩

/-- Two such states stay so, however long they run. -/
theorem run_sameObservable (hi : s.Inv) (k : Nat) : ∃ s' t',
    Sys2Proof.core.run k s = .next s' ∧ Sys2Proof.core.run k t = .next t' ∧ s'.SameObservable t' := by
  induction k generalizing s t with
  | zero => exact ⟨s, t, rfl, rfl, h⟩
  | succ k ih =>
    obtain ⟨s₁, t₁, hs, ht, hst⟩ := step_sameObservable h hi
    rw [run_succ hs, run_succ ht]
    exact ih hst (stepKeepsInvariant s s₁ hi hs)

end

/-- Settles O45: with no algorithm selected the two reset states differ only in what no command observes,
and every run keeps that. -/
theorem resetContentsAreUnobservable : Obligations.ResetContentsAreUnobservable := by
  intro h h' b b' stream k
  have hinv : State.Inv { State.reset with h := h, buf := b, input := stream } :=
    inv_of_idle rfl rfl rfl rfl rfl
  have hobs : State.SameObservable { State.reset with h := h, buf := b, input := stream }
      { State.reset with h := h', buf := b', input := stream } := ⟨rfl, by simp⟩
  obtain ⟨t, t', ht, ht', hst⟩ := run_sameObservable hobs hinv k
  exact ⟨t, t', ht, ht', hst, sameObservable_resp hst, sameObservable_statusWord hst⟩

end Sys2Proof.Machine
end

section
/-! PROOFS. The verdict of the decoder on a header (30_encoding.md R93, R94), one lemma for each row and
for each illegal encoding. -/

namespace Sys2Proof

/-! ### Fields of a masked header -/

theorem headerOp_and (hdr m : Word32) : headerOp (hdr &&& m) = headerOp hdr &&& headerOp m :=
  BitVec.extractLsb_and

theorem headerReservedA_and (hdr m : Word32) :
    headerReservedA (hdr &&& m) = headerReservedA hdr &&& headerReservedA m :=
  BitVec.extractLsb_and

/-- A mask that keeps all opcode bits fixes the opcode. -/
theorem headerOp_of_mask {hdr m v : Word32} (h : hdr &&& m = v)
    (hm : headerOp m = BitVec.allOnes 8) : headerOp hdr = headerOp v := by
  rw [← h, headerOp_and, hm, BitVec.and_allOnes]

/-- A mask that keeps all reserved bits of format A fixes them. -/
theorem headerReservedA_of_mask {hdr m v : Word32} (h : hdr &&& m = v)
    (hm : headerReservedA m = BitVec.allOnes 20) : headerReservedA hdr = headerReservedA v := by
  rw [← h, headerReservedA_and, hm, BitVec.and_allOnes]

/-- A mask that keeps every bit fixes the header. -/
theorem eq_of_fullMask {hdr v : Word32} (h : hdr &&& 0xFFFFFFFF#32 = v) : hdr = v :=
  (BitVec.and_allOnes (x := hdr)).symm.trans h

/-! ### The algorithm field -/

theorem algOfCode_eq_none : ∀ {c : BitVec 4}, c.toNat = 0 ∨ 8 ≤ c.toNat → algOfCode c = none := by
  decide

/-! ### The verdict -/

section
variable {hdr : Word32}

theorem decodeCommand_init (hop : headerOp hdr = 0x01) (hres : headerReservedA hdr = 0) {a : Alg}
    (halg : algOfCode (headerAlg hdr) = some a) (data : List Byte) :
    decodeCommand hdr data = .ok (.init a) := by
  simp [decodeCommand, hop, hres, halg]

theorem decodeCommand_badAlg (hop : headerOp hdr = 0x01) (hres : headerReservedA hdr = 0)
    (halg : algOfCode (headerAlg hdr) = none) (data : List Byte) :
    decodeCommand hdr data = .error .badAlg := by
  simp [decodeCommand, hop, hres, halg]

theorem decodeCommand_update (hop : headerOp hdr = 0x02) (data : List Byte) :
    decodeCommand hdr data = .ok (.update data) := by
  simp [decodeCommand, hop]

theorem decodeCommand_compress (hop : headerOp hdr = 0x04) (data : List Byte) :
    decodeCommand hdr data = .ok (.compress data) := by
  simp [decodeCommand, hop]

theorem decodeCommand_reservedA (hop : headerOp hdr = 0x01) (hres : headerReservedA hdr ≠ 0)
    (data : List Byte) : decodeCommand hdr data = .error .reservedOperand := by
  simp only [decodeCommand, hop, if_true, if_pos hres]

theorem decodeCommand_reservedZ (hop : headerOp hdr = 0x03 ∨ headerOp hdr = 0x05 ∨ headerOp hdr = 0x06)
    (hres : headerOperand hdr ≠ 0) (data : List Byte) :
    decodeCommand hdr data = .error .reservedOperand := by
  rcases hop with hop | hop | hop <;> simpa [decodeCommand, hop] using hres

theorem decodeCommand_illegalOpcode (hop : (headerOp hdr).toNat = 0 ∨ 7 ≤ (headerOp hdr).toNat)
    (data : List Byte) : decodeCommand hdr data = .error .illegalOpcode := by
  have hne : ∀ op : Byte, 1 ≤ op.toNat ∧ op.toNat ≤ 6 → headerOp hdr ≠ op := by
    rintro op hrange rfl
    omega
  simp [decodeCommand, hne]

end

/-- Settles O4: under its mask a row fixes the fields that the verdict reads, and an illegal header's
numbers are those its verdict reads. -/
theorem headerRowsSelectCommands : Obligations.HeaderRowsSelectCommands := by
  intro hdr data
  refine ⟨fun hm => ?_, fun hm => ?_, fun hm => ?_, fun hm => ?_, fun hm => ?_, fun hm => ?_,
    fun hop => ?_, fun hop hres => ?_, fun hop hres => ?_⟩
  · have hop : headerOp hdr = 0x01 := headerOp_of_mask hm rfl
    have hres : headerReservedA hdr = 0 := headerReservedA_of_mask hm rfl
    refine ⟨fun a ha => decodeCommand_init hop hres ?_ data,
      fun hc => decodeCommand_badAlg hop hres (algOfCode_eq_none hc) data⟩
    rw [headerAlg, ha, algOfCode_codeOfAlg]
  · exact decodeCommand_update (headerOp_of_mask hm rfl) data
  · rw [eq_of_fullMask hm]
    rfl
  · exact decodeCommand_compress (headerOp_of_mask hm rfl) data
  · rw [eq_of_fullMask hm]
    rfl
  · rw [eq_of_fullMask hm]
    rfl
  · exact decodeCommand_illegalOpcode hop data
  · exact decodeCommand_reservedA (BitVec.eq_of_toNat_eq hop) (ne_of_apply_ne BitVec.toNat hres) data
  · exact decodeCommand_reservedZ
      (hop.imp BitVec.eq_of_toNat_eq (Or.imp BitVec.eq_of_toNat_eq BitVec.eq_of_toNat_eq))
      (ne_of_apply_ne BitVec.toNat hres) data

/-! ### The printed examples -/

/-- Settles O1: the rows are closed facts, and each is evaluated. -/
theorem encodingExamplesDecode : Obligations.EncodingExamplesDecode := by
  unfold Obligations.EncodingExamplesDecode
  decide

end Sys2Proof
end

section
/-! PROOFS. The length of a command in every phase (30_encoding.md R96) and the expansions of the
pseudo-commands (R99). -/

namespace Sys2Proof.Machine

/-! ### Command length -/

/-- R96 in the bytes of the header. -/
theorem payloadLength_frontHeader_cons (op x y z : Byte) (more : List Byte) :
    payloadLength (frontHeader (op :: x :: y :: z :: more)) =
      if op = 0x02 ∨ op = 0x04 then x.toNat * 65536 + y.toNat * 256 + z.toNat else 0 := by
  obtain ⟨hop, hoperand⟩ := frontHeader_cons op x y z more
  rw [payloadLength, hop, hoperand]

/-- With its payload arrived, a command is framed, and its payload and the rest follow the header. -/
theorem exists_frame_cons {op x y z : Byte} {more : List Byte} {P : Nat}
    (hP : payloadLength (frontHeader (op :: x :: y :: z :: more)) = P) (hle : P ≤ more.length) :
    ∃ f, frame (op :: x :: y :: z :: more) = some f ∧ payloadLength f.hdr = P ∧
      f.rest = more.drop P := by
  have hsome : frame (op :: x :: y :: z :: more) ≠ none := by
    rw [Ne, frame_eq_none, hP]
    simp only [List.length_cons]
    omega
  obtain ⟨f, hf⟩ := Option.ne_none_iff_exists'.mp hsome
  have hlen : payloadLength f.hdr = P := by rw [frame_hdr hf, hP]
  refine ⟨f, hf, hlen, ?_⟩
  rw [frame_rest hf, hlen, ← List.drop_drop]
  rfl

/-- Settles O7: the command is framed from its header, under the invariant the step answers, and every
answer has consumed exactly the framed bytes. -/
theorem commandLengthFromHeader : Obligations.CommandLengthFromHeader := by
  rintro s op x y z more hi hin P rfl hle
  obtain ⟨f, hf, hlen, hrest⟩ :=
    exists_frame_cons (payloadLength_frontHeader_cons op x y z more) hle
  rw [← hin] at hf
  obtain ⟨t, ht⟩ := step_next_of_inv hi
  obtain ⟨hcp, hinput⟩ := step_stream hf ht
  exact ⟨t, ht, by rw [hcp, hlen], by rw [hinput, hrest]⟩

/-! ### The expansion of a long UPDATE -/

theorem wellFormed_of_mem_longUpdateCommands {data : List Byte} {i : Instr}
    (h : i ∈ longUpdateCommands data) : i.WellFormed ∧ ∃ d, i = .update d := by
  obtain ⟨-, hshort, -⟩ :=
    pieces_flatten maxChunk (by decide) (data.length + 1) data (Nat.lt_succ_self _)
  obtain ⟨d, hd, rfl⟩ := List.mem_map.mp h
  exact ⟨decide_eq_true (Nat.lt_succ_of_le (hshort d hd)), d, rfl⟩

theorem execAll_longUpdateCommands {a : Alg} {s : State} (hl : s.Live a) {data : List Byte}
    (h : s.len.toNat + data.length < lengthLimit) :
    execAll (longUpdateCommands data) s = .next (afterUpdate a data s) := by
  obtain ⟨hflat, -, hne⟩ :=
    pieces_flatten maxChunk (by decide) (data.length + 1) data (Nat.lt_succ_self _)
  obtain ⟨d, ds, hcons⟩ := List.exists_cons_of_ne_nil hne
  rw [hcons] at hflat
  rw [longUpdateCommands, hcons, execAll_updates hl d ds (by rwa [hflat]), hflat]

/-- Settles O47: the pieces are short enough and are the data, and UPDATEs in a row are one UPDATE. -/
theorem longUpdateExpansion : Obligations.LongUpdateExpansion :=
  fun _ _ _ hl hn => ⟨fun _ => wellFormed_of_mem_longUpdateCommands, _,
    execAll_longUpdateCommands hl hn, execUpdate_ok hl hn⟩

/-! ### The expansion of HASHBLOCK -/

theorem execAll_cons_of_next {i : Instr} {s t : State} (h : exec i s = .next t) (is : List Instr) :
    execAll (i :: is) s = execAll is t := by
  rw [execAll, h]

theorem freshInstance_live (a : Alg) (s : State) : (freshInstance a s).Live a := ⟨.inl rfl, rfl⟩

theorem afterCompress_live {a : Alg} {s : State} (h : s.Live a) (blk : List Byte) :
    (afterCompress a blk s).Live a := ⟨.inr rfl, h.2⟩

theorem execCompress_ok {a : Alg} {s : State} (hl : s.Live a) {blk : List Byte}
    (h : blk.length = blockBytes a) : exec (.compress blk) s = .next (afterCompress a blk s) := by
  rw [execCompress_of_live hl, if_neg (not_not_intro h)]

theorem execAll_hashBlockCommands {a : Alg} {s : State} (hp : s.phase ≠ .faulted) {blk : List Byte}
    (h : blk.length = blockBytes a) :
    execAll (hashBlockCommands a blk) s = .next ((afterCompress a blk (freshInstance a s)).emit
      (serialize a (compress a (initialValue a) blk))) := by
  have hfresh := freshInstance_live a s
  rw [hashBlockCommands, execAll_cons_of_next (execInit_of_ne hp a),
    execAll_cons_of_next (execCompress_ok hfresh h),
    execAll_cons_of_next (execReadState_of_live (afterCompress_live hfresh blk))]
  rfl

/-- Settles O48: INIT makes the instance live, COMPRESS runs on its initial value, and READ_STATE emits
the result; none of the three counts a byte. -/
theorem hashBlockExpansion : Obligations.HashBlockExpansion :=
  fun _ _ _ hp h => ⟨_, execAll_hashBlockCommands hp h, rfl, rfl, rfl, rfl⟩

end Sys2Proof.Machine
end

section
/-! PROOFS. The block buffer and the padding (40_block_buffer.md): pieces of a payload in a row, the
padding prefix, and the length field. -/

namespace Sys2Proof.Machine

/-! ### Pieces of a payload -/

/-- 40_block_buffer.md R125 for the loop of R121: the cuts between pieces are not seen. -/
theorem foldl_bufInput (a : Alg) (s : State) (ds : List (List Byte)) :
    ds.foldl (fun u d => u.bufInput a d) s = s.bufInput a ds.flatten :=
  List.foldl_flatten.symm

/-- Settles O22: the byte loop reads the pieces as their concatenation, and UPDATEs in a row leave what
one UPDATE of all their payloads leaves. -/
theorem updateIsChunkInvariant : Obligations.UpdateIsChunkInvariant := by
  refine ⟨foldl_bufInput, fun a s ds hl hne hn => ?_⟩
  obtain ⟨d, ds, rfl⟩ := List.exists_cons_of_ne_nil hne
  exact ⟨_, execAll_updates hl d ds hn, execUpdate_ok hl hn⟩

/-! ### The padding prefix -/

/-- Settles O30: the two cases of `standardPadding_spec` are told apart by whether 0x80 and the length
field fit behind the pending bytes. -/
theorem standardPaddingLeavesRoom : Obligations.StandardPaddingLeavesRoom := by
  rintro s _ a hs rfl
  obtain ⟨hplen, ⟨hfits, hh, hpending⟩ | ⟨hflush, hh, hpending⟩⟩ := standardPadding_spec hs
  · refine ⟨hplen, fun _ => ⟨hh, ?_⟩, fun hflush => absurd hfits (Nat.not_le.mpr hflush)⟩
    rw [hpending, Nat.sub_add_eq]
  · refine ⟨hplen, fun hfits => absurd hfits (Nat.not_le.mpr hflush), fun _ => ⟨?_, hpending⟩⟩
    rw [hh, Nat.sub_add_eq]

/-! ### The length field -/

/-- Below the limit of 60_exceptions.md R345 the bit count fits 64 bits, so R129's reduction is the
identity. -/
theorem lengthField_of_le {len : BitVec 64} (h : len.toNat ≤ 2 ^ 61 - 1) (a : Alg) :
    lengthField a len = orderBytes (byteOrder a) (8 * len.toNat) (lengthBytes a) := by
  have hbits : 8 * len.toNat < 2 ^ 64 := by omega
  rw [lengthField, Nat.mod_eq_of_lt hbits]

/-- The upper half of a 16-byte length field is zero, because the bit count fits 8 bytes. -/
theorem lengthField_sixteen {len : BitVec 64} (h : len.toNat ≤ 2 ^ 61 - 1) {a : Alg}
    (horder : byteOrder a = .big) (hbytes : lengthBytes a = 16) :
    lengthField a len = zeros 8 ++ toBE (8 * len.toNat) 8 ∧
      lengthField a len = toBE (8 * len.toNat) 16 := by
  have hfield : lengthField a len = toBE (8 * len.toNat) 16 := by
    rw [lengthField_of_le h, horder, hbytes, orderBytes]
  have hfits : 8 * len.toNat < 256 ^ 8 := by omega
  exact ⟨hfield.trans (toBE_add_of_lt (j := 8) hfits), hfield⟩

/-- Settles O31: below the limit the reduction changes nothing, and each algorithm's row of R301 gives
the byte order and the size. -/
theorem lengthFieldBytes : Obligations.LengthFieldBytes := by
  intro len h
  refine ⟨?_, ?_, lengthField_of_le h .ripemd160⟩
  · rintro a (rfl | rfl)
    · exact lengthField_of_le h .sha224
    · exact lengthField_of_le h .sha256
  · rintro a (rfl | rfl | rfl | rfl) <;> exact lengthField_sixteen h rfl rfl

end Sys2Proof.Machine
end

section
/-! PROOFS. The 32-bit compression core (41_sha2_32.md) and the constant tables (R158, R208, R247 to
R251). -/

namespace Sys2Proof.Machine

/-! ### The sigmas as library rotations -/

theorem bigSigma_eq_rotateRight {w i j k : Nat} (hi : i < w) (hj : j < w) (hk : k < w) (x : BitVec w) :
    bigSigma i j k x = x.rotateRight i ^^^ x.rotateRight j ^^^ x.rotateRight k := by
  rw [bigSigma, rotr_eq_rotateRight x hi, rotr_eq_rotateRight x hj, rotr_eq_rotateRight x hk]

theorem smallSigma_eq_rotateRight {w i j : Nat} (hi : i < w) (hj : j < w) (k : Nat) (x : BitVec w) :
    smallSigma i j k x = x.rotateRight i ^^^ x.rotateRight j ^^^ x >>> k := by
  rw [smallSigma, rotr_eq_rotateRight x hi, rotr_eq_rotateRight x hj, shr]

/-- R153. -/
theorem sha2Core32_bigSigma0 (x : Word32) :
    sha2Core32.bigSigma0 x = x.rotateRight 2 ^^^ x.rotateRight 13 ^^^ x.rotateRight 22 :=
  bigSigma_eq_rotateRight (by decide) (by decide) (by decide) x

/-- R154. -/
theorem sha2Core32_bigSigma1 (x : Word32) :
    sha2Core32.bigSigma1 x = x.rotateRight 6 ^^^ x.rotateRight 11 ^^^ x.rotateRight 25 :=
  bigSigma_eq_rotateRight (by decide) (by decide) (by decide) x

/-- R155. -/
theorem sha2Core32_smallSigma0 (x : Word32) :
    sha2Core32.smallSigma0 x = x.rotateRight 7 ^^^ x.rotateRight 18 ^^^ x >>> 3 :=
  smallSigma_eq_rotateRight (by decide) (by decide) 3 x

/-- R156. -/
theorem sha2Core32_smallSigma1 (x : Word32) :
    sha2Core32.smallSigma1 x = x.rotateRight 17 ^^^ x.rotateRight 19 ^^^ x >>> 10 :=
  smallSigma_eq_rotateRight (by decide) (by decide) 10 x

/-! ### The core -/

theorem compress_eq_compress32 {a : Alg} (ha : a = .sha224 ∨ a = .sha256) (h : Vector Word64 8)
    (blk : List Byte) : compress a h blk = storeWorking32 (compress32 (loadWorking32 h) blk) := by
  rcases ha with rfl | rfl <;> rfl

/-- `sha2Compress_eq` for the 32-bit core, with its 64 constants. -/
theorem compress32_eq_add (hin : Working 32) (blk : List Byte) (W : Nat → Word32)
    (S : Nat → Working 32)
    (hblock : ∀ i, i < 16 → W i = BitVec.ofNat 32 (be ((blk.drop (4 * i)).take 4)))
    (hschedule : ∀ t, 16 ≤ t → t < 64 → W t = W (t - 16) + sha2Core32.smallSigma0 (W (t - 15)) +
      W (t - 7) + sha2Core32.smallSigma1 (W (t - 2)))
    (hfirst : S 0 = hin)
    (hround : ∀ t, t < 64 → S (t + 1) = sha2Round sha2Core32 (S t) (k32.getD t 0, W t)) :
    compress32 hin blk = hin.add (S 64) := by
  refine sha2Compress_eq sha2Core32 (by decide) hin blk W S hblock hschedule hfirst fun t ht => ?_
  rw [hround t ht, ← List.getD_eq_getElem sha2Core32.k 0 ht]
  rfl

/-- Settles O33: the statement's sigmas are those of the core, so its schedule and its working sets are
the sequences of `compress32_eq_add`; storing zero-extends the feed-forward (R161). -/
theorem compress32RunsTheRounds : Obligations.Compress32RunsTheRounds := by
  intro a h blk W S ha _ hblock hschedule hfirst hround
  have hcompress : compress32 (loadWorking32 h) blk = (loadWorking32 h).add (S 64) := by
    refine compress32_eq_add _ blk W S hblock (fun t hlo hhi => ?_) hfirst fun t ht => ?_
    · rw [sha2Core32_smallSigma0, sha2Core32_smallSigma1]
      exact hschedule t hlo hhi
    · rw [hround t _ _ ht rfl rfl, sha2Round, sha2Core32_bigSigma0, sha2Core32_bigSigma1]
      rfl
  have hload : loadWorking32 h = S 0 := hfirst.symm
  rw [compress_eq_compress32 ha, hcompress, hload]
  rfl

/-! ### The constant tables -/

/-- Settles O49: each table is the list the rules print, row by row. -/
theorem tablesHoldTheseConstants : Obligations.TablesHoldTheseConstants :=
  ⟨rfl, rfl, rfl, rfl, rfl, rfl, rfl, rfl⟩

end Sys2Proof.Machine
end

section
/-! PROOFS. The 64-bit compression core (42_sha2_64.md). -/

namespace Sys2Proof.Machine

/-! ### The sigmas as library rotations -/

/-- R203. -/
theorem sha2Core64_bigSigma0 (x : Word64) :
    sha2Core64.bigSigma0 x = x.rotateRight 28 ^^^ x.rotateRight 34 ^^^ x.rotateRight 39 :=
  bigSigma_eq_rotateRight (by decide) (by decide) (by decide) x

/-- R204. -/
theorem sha2Core64_bigSigma1 (x : Word64) :
    sha2Core64.bigSigma1 x = x.rotateRight 14 ^^^ x.rotateRight 18 ^^^ x.rotateRight 41 :=
  bigSigma_eq_rotateRight (by decide) (by decide) (by decide) x

/-- R205. -/
theorem sha2Core64_smallSigma0 (x : Word64) :
    sha2Core64.smallSigma0 x = x.rotateRight 1 ^^^ x.rotateRight 8 ^^^ x >>> 7 :=
  smallSigma_eq_rotateRight (by decide) (by decide) 7 x

/-- R206. -/
theorem sha2Core64_smallSigma1 (x : Word64) :
    sha2Core64.smallSigma1 x = x.rotateRight 19 ^^^ x.rotateRight 61 ^^^ x >>> 6 :=
  smallSigma_eq_rotateRight (by decide) (by decide) 6 x

/-! ### The core -/

theorem compress_eq_compress64 {a : Alg}
    (ha : a = .sha384 ∨ a = .sha512 ∨ a = .sha512t224 ∨ a = .sha512t256) (h : Vector Word64 8)
    (blk : List Byte) : compress a h blk = storeWorking64 (compress64 (loadWorking64 h) blk) := by
  rcases ha with rfl | rfl | rfl | rfl <;> rfl

/-- Settles O34: the statement's sigmas are those of the core, so its schedule and its working sets are
the sequences of `sha2Compress_eq`, with the 80 constants of the core. -/
theorem compress64RunsTheRounds : Obligations.Compress64RunsTheRounds := by
  intro a h blk W S ha _ hblock hschedule hfirst hround
  have hcompress : compress64 (loadWorking64 h) blk = (loadWorking64 h).add (S 80) := by
    refine sha2Compress_eq sha2Core64 (by decide) _ blk W S hblock (fun t hlo hhi => ?_) hfirst
      fun t ht => ?_
    · rw [sha2Core64_smallSigma0, sha2Core64_smallSigma1]
      exact hschedule t hlo hhi
    · rw [hround t _ _ ht rfl rfl, sha2Round, sha2Core64_bigSigma0, sha2Core64_bigSigma1,
        ← List.getD_eq_getElem sha2Core64.k 0 ht]
      rfl
  rw [compress_eq_compress64 ha, hcompress]
  rfl

end Sys2Proof.Machine
end

section
/-! PROOFS. The RIPEMD-160 core (43_ripemd160.md) and the initial values of the seven algorithms
(44_digest_facade.md R303 to R305). -/

namespace Sys2Proof.Machine

/-! ### The two paths as sequences of 80 rounds -/

/-- Five rows of sixteen entries, each entry below `bound`. -/
def RowsBelow (bound : Nat) (tab : List (List Nat)) : Prop :=
  ∀ i < 5, (tab.getD i []).length = 16 ∧ ∀ k < 16, (tab.getD i []).getD k 0 < bound

theorem selLeft_rowsBelow : RowsBelow 16 selLeft := by unfold RowsBelow; decide

theorem selRight_rowsBelow : RowsBelow 16 selRight := by unfold RowsBelow; decide

theorem rotLeft_rowsBelow : RowsBelow 32 rotLeft := by unfold RowsBelow; decide

theorem rotRight_rowsBelow : RowsBelow 32 rotRight := by unfold RowsBelow; decide

/-- The phases of a path whose functions are `g 0` to `g 4` (R246). -/
def pathOf (g : Nat → Word32 → Word32 → Word32 → Word32) (add : List Word32)
    (sel rot : List (List Nat)) : List PathPhase :=
  (List.range 5).map fun i => pathPhase (g i) add sel rot i

theorem pathOf_getElem (g : Nat → Word32 → Word32 → Word32 → Word32) (add : List Word32)
    (sel rot : List (List Nat)) (i : Nat) (hi : i < (pathOf g add sel rot).length) :
    (pathOf g add sel rot)[i] = pathPhase (g i) add sel rot i := by simp [pathOf]

/-- R252, R253 with the library's rotation and the constant of the phase. -/
theorem pathRound_pathPhase (f : Word32 → Word32 → Word32 → Word32) (add : List Word32)
    (sel rot : List (List Nat)) (i : Nat) (x : List Word32) (s : Path) (m : Nat) {r : Nat}
    (hr : r < 32) : pathRound x (pathPhase f add sel rot i) s (m, r) =
      ⟨s.e, (s.a + f s.b s.c s.d + x.getD m 0 + add.getD i 0).rotateLeft r + s.e, s.b,
        s.c.rotateLeft 10, s.d⟩ := by
  rw [pathRound, rotl_eq_rotateLeft _ hr, rotl_eq_rotateLeft _ (by decide), pathPhase]

/-- A fold over two lists in step is the last term of the sequence that takes one entry of each. -/
theorem foldl_zip_eq_seq {β : Type} (f : β → Nat × Nat → β) {l r : List Nat} {n : Nat}
    (hl : l.length = n) (hr : r.length = n) (S : Nat → β)
    (hS : ∀ k < n, S (k + 1) = f (S k) (l.getD k 0, r.getD k 0)) :
    (l.zip r).foldl f (S 0) = S n := by
  have hlen : (l.zip r).length = n := by rw [List.length_zip, hl, hr, Nat.min_self]
  rw [foldl_eq_seq f (l.zip r) S, hlen]
  intro k hk
  have hkn : k < n := hlen ▸ hk
  rw [hS k hkn, List.getElem_zip, List.getD_eq_getElem l 0 (hl ▸ hkn),
    List.getD_eq_getElem r 0 (hr ▸ hkn)]

/-- A path is the sequence of states whose round `j` is round `j % 16` of phase `j / 16`. -/
theorem pathRounds_pathOf {g : Nat → Word32 → Word32 → Word32 → Word32} {add : List Word32}
    {sel rot : List (List Nat)} (hsel : RowsBelow 16 sel) (hrot : RowsBelow 32 rot)
    {x : List Word32} {X : Nat → Word32} (hX : ∀ i < 16, X i = x.getD i 0) {S : Nat → Path}
    (hS : ∀ j < 80, S (j + 1) = ⟨(S j).e,
      ((S j).a + g (j / 16) (S j).b (S j).c (S j).d + X ((sel.getD (j / 16) []).getD (j % 16) 0) +
        add.getD (j / 16) 0).rotateLeft ((rot.getD (j / 16) []).getD (j % 16) 0) + (S j).e,
      (S j).b, (S j).c.rotateLeft 10, (S j).d⟩) :
    pathRounds x (pathOf g add sel rot) (S 0) = S 80 := by
  have hphase : ∀ i < 5, S (16 * i + 16) =
      pathPhaseRounds x (S (16 * i)) (pathPhase (g i) add sel rot i) := by
    intro i hi
    obtain ⟨hselLength, hselBelow⟩ := hsel i hi
    obtain ⟨hrotLength, hrotBelow⟩ := hrot i hi
    refine (foldl_zip_eq_seq (pathRound x (pathPhase (g i) add sel rot i)) hselLength hrotLength
      (fun k => S (16 * i + k)) fun k hk => ?_).symm
    have hround := hS (16 * i + k) (by omega)
    rw [show (16 * i + k) / 16 = i by omega, show (16 * i + k) % 16 = k by omega,
      hX _ (hselBelow k hk)] at hround
    rw [pathRound_pathPhase _ _ _ _ _ _ _ _ (hrotBelow k hk)]
    exact hround
  have hlen : (pathOf g add sel rot).length = 5 := by simp [pathOf]
  have hpath := foldl_eq_seq (pathPhaseRounds x) (pathOf g add sel rot) (fun i => S (16 * i))
    fun i hi => by rw [pathOf_getElem]; exact hphase i (hlen ▸ hi)
  rwa [hlen] at hpath

/-! ### The core -/

/-- Settles O35: both phase lists are `pathOf` of the statement's functions, in the order 1 to 5 on the
left and 5 to 1 on the right, so each path is the sequence of `pathRounds_pathOf`; storing zero-extends
the cross-wired sums and keeps H[5..7] (R258). -/
theorem compress160RunsBothPaths : Obligations.Compress160RunsBothPaths := by
  intro h blk X L R F rowNat _ hblock hF hrow hfirst hsame hleft hright
  simp only [forall_and] at hF
  obtain ⟨h1, h2, h3, h4, h5⟩ := hF
  have hF1 : F 1 = f1 := funext₃ h1
  have hF2 : F 2 = f2 := funext₃ h2
  have hF3 : F 3 = f3 := funext₃ h3
  have hF4 : F 4 = f4 := funext₃ h4
  have hF5 : F 5 = f5 := funext₃ h5
  have hleftPhases : leftPhases = pathOf (fun i => F (i + 1)) addLeft selLeft rotLeft := by
    simp [leftPhases, pathOf, List.range_succ, hF1, hF2, hF3, hF4, hF5]
  have hrightPhases : rightPhases = pathOf (fun i => F (5 - i)) addRight selRight rotRight := by
    simp [rightPhases, pathOf, List.range_succ, hF1, hF2, hF3, hF4, hF5]
  have hX : ∀ i < 16, X i = (blockWords .little 32 blk).getD i 0 := fun i hi =>
    (hblock i hi).trans (blockWords_getD .little 32 blk i hi).symm
  simp only [hrow] at hleft hright
  have hL : pathRounds (blockWords .little 32 blk) leftPhases (L 0) = L 80 := by
    rw [hleftPhases]
    exact pathRounds_pathOf selLeft_rowsBelow rotLeft_rowsBelow hX hleft
  have hR : pathRounds (blockWords .little 32 blk) rightPhases (L 0) = R 80 := by
    rw [hrightPhases, ← hsame]
    exact pathRounds_pathOf selRight_rowsBelow rotRight_rowsBelow hX hright
  have hload : loadPath h = L 0 := hfirst.symm
  rw [compress, compress160, hload, hL, hR]
  rfl

/-! ### The initial values -/

theorem exec_init_h {s : State} (hp : s.phase ≠ .faulted) (a : Alg) :
    ∃ t, exec (.init a) s = .next t ∧ t.h = initialValue a :=
  ⟨freshInstance a s, execInit_of_ne hp a, rfl⟩

/-- Settles O20: INIT loads `initialValue`, whose seven rows are the words the rules print. -/
theorem initialValuesOfEachAlgorithm : Obligations.InitialValuesOfEachAlgorithm :=
  fun _ hp => ⟨exec_init_h hp .sha224, exec_init_h hp .sha256, exec_init_h hp .sha384,
    exec_init_h hp .sha512, exec_init_h hp .sha512t224, exec_init_h hp .sha512t256,
    exec_init_h hp .ripemd160⟩

end Sys2Proof.Machine
end

section
/-! PROOFS. The bytes of the serialized state and of the digest (44_digest_facade.md R302, R306). -/

namespace Sys2Proof.Machine

/-! ### Bytes of words in a row -/

theorem orderBytes_mod (o : ByteOrder) (x k : Nat) : orderBytes o (x % 256 ^ k) k = orderBytes o x k := by
  cases o
  · exact toBE_mod x k
  · exact toLE_mod x k

/-- The first `j` of `j + k` bytes, most significant first, are the value above the other `k`. -/
theorem toBE_take (x j k : Nat) : (toBE x (j + k)).take j = toBE (x / 256 ^ k) j := by
  rw [toBE, Nat.add_comm, toLE_add, List.reverse_append]
  exact List.take_left' (by simp)

theorem length_flatMap_of_length {g : Word64 → List Byte} {k : Nat} (hg : ∀ x, (g x).length = k)
    (l : List Word64) : (l.flatMap g).length = l.length * k := by
  simp [List.length_flatMap, hg]

/-- `n` whole words and `r` bytes more. -/
theorem take_flatMap_of_length {g : Word64 → List Byte} {k : Nat} (hg : ∀ x, (g x).length = k)
    (l : List Word64) {n : Nat} (hn : n ≤ l.length) (r : Nat) :
    (l.flatMap g).take (n * k + r) = (l.take n).flatMap g ++ ((l.drop n).flatMap g).take r := by
  have hlen : ((l.take n).flatMap g).length = n * k := by
    rw [length_flatMap_of_length hg, List.length_take_of_le hn]
  rw [← hlen, ← List.take_length_add_append, ← List.flatMap_append, List.take_append_drop]

theorem toList_eq_words (h : Vector Word64 8) :
    h.toList = [h[0], h[1], h[2], h[3], h[4], h[5], h[6], h[7]] := by
  apply List.ext_getElem
  · simp
  · intro i hi _
    have hi8 : i < 8 := by simpa using hi
    interval_cases i <;> simp

/-! ### The digest -/

/-- The bytes of one word of H in the algorithm's size and order (R302). -/
def wordOf (a : Alg) (x : Word64) : List Byte := orderBytes (byteOrder a) x.toNat (wordBytes a)

theorem wordOf_length (a : Alg) (x : Word64) : (wordOf a x).length = wordBytes a :=
  orderBytes_length _ _ _

theorem serialize_eq (a : Alg) (h : Vector Word64 8) :
    serialize a h = (h.toList.take (stateWords a)).flatMap (wordOf a) := rfl

theorem stateWords_le (a : Alg) : stateWords a ≤ 8 := by cases a <;> decide

/-- A digest of `n` words and `r` bytes is the first `n` words and `r` bytes of those behind. -/
theorem digest_eq_words (a : Alg) (h : Vector Word64 8) {n r : Nat} (hn : n ≤ stateWords a)
    (hout : outBytes a = n * wordBytes a + r) :
    digest a h = (h.toList.take n).flatMap (wordOf a) ++
      (((h.toList.take (stateWords a)).drop n).flatMap (wordOf a)).take r := by
  have hlen : (h.toList.take (stateWords a)).length = stateWords a :=
    List.length_take_of_le (by simpa using stateWords_le a)
  rw [digest, serialize_eq, hout, take_flatMap_of_length (wordOf_length a) _ (by rwa [hlen]),
    List.take_take, Nat.min_eq_left hn]

/-- A digest of whole words. -/
theorem digest_eq_flatMap (a : Alg) (h : Vector Word64 8) {n : Nat} {w : Nat → List Byte}
    (hn : n ≤ stateWords a) (hout : outBytes a = n * wordBytes a)
    (hw : ∀ i (hi : i < 8), w i = wordOf a h[i]) : digest a h = (List.range n).flatMap w := by
  rw [digest_eq_words a h hn (r := 0) hout, List.take_zero, List.append_nil,
    flatMap_range_eq h n (hn.trans (stateWords_le a)) _ w hw]

/-- SHA-512/224 ends in the middle of a word, with the upper half of H[3]. -/
theorem digest_sha512t224 (h : Vector Word64 8) {w : Nat → List Byte}
    (hw : ∀ i (hi : i < 8), w i = wordOf .sha512t224 h[i]) :
    digest .sha512t224 h = (List.range 3).flatMap w ++ toBE (h[3].extractLsb 63 32).toNat 4 := by
  have hhalf : (wordOf .sha512t224 h[3]).take 4 = toBE (h[3].extractLsb 63 32).toNat 4 := by
    have hx := h[3].isLt
    have hup : (h[3].extractLsb 63 32).toNat = h[3].toNat / 256 ^ 4 := by
      rw [BitVec.extractLsb_toNat, Nat.shiftRight_eq_div_pow]
      omega
    rw [hup]
    exact toBE_take h[3].toNat 4 4
  have hrest : (h.toList.take 8).drop 3 = h[3] :: [h[4], h[5], h[6], h[7]] := by
    rw [toList_eq_words]
    rfl
  rw [digest_eq_words .sha512t224 h (n := 3) (r := 4) (by decide) (by decide),
    flatMap_range_eq h 3 (by decide) _ w hw, stateWords, hrest, List.flatMap_cons,
    List.take_append_of_le_length (by simp [wordOf_length, wordBytes]), hhalf]

/-- Settles O32: each digest but one is a number of whole words; SHA-512/224 ends with half of H[3]. -/
theorem digestHoldsTheseWords : Obligations.DigestHoldsTheseWords := by
  intro h w hw
  have hbig : ∀ a, byteOrder a = .big → ∀ i (hi : i < 8), w (wordBytes a) i = wordOf a h[i] := by
    intro a ha i hi
    rw [hw i hi, wordOf, ha, ← orderBytes_mod, orderBytes]
  have hlittle : ∀ i (hi : i < 8), (w 4 i).reverse = wordOf .ripemd160 h[i] := by
    intro i hi
    rw [hw i hi, toBE, List.reverse_reverse]
    exact toLE_mod _ _
  exact ⟨digest_eq_flatMap .sha224 h (by decide) (by decide) (hbig .sha224 rfl),
    digest_eq_flatMap .sha256 h (by decide) (by decide) (hbig .sha256 rfl),
    digest_eq_flatMap .sha384 h (by decide) (by decide) (hbig .sha384 rfl),
    digest_eq_flatMap .sha512 h (by decide) (by decide) (hbig .sha512 rfl),
    digest_sha512t224 h (hbig .sha512t224 rfl),
    digest_eq_flatMap .sha512t256 h (by decide) (by decide) (hbig .sha512t256 rfl),
    digest_eq_flatMap .ripemd160 h (by decide) (by decide) hlittle⟩

/-! ### The serialized state -/

/-- The words of a 32-bit algorithm are the low halves of H. -/
theorem wordOf_of_wordBytes_four {a : Alg} (ha : wordBytes a = 4) :
    wordOf a = fun x => orderBytes (byteOrder a) (x.toNat % 2 ^ 32) 4 := by
  funext x
  rw [wordOf, ha]
  exact (orderBytes_mod _ x.toNat 4).symm

theorem serialize_words (a : Alg) (h : Vector Word64 8) : serialize a h =
    (if a = .sha224 ∨ a = .sha256 then
      [h[0], h[1], h[2], h[3], h[4], h[5], h[6], h[7]].flatMap fun x => toBE (x.toNat % 2 ^ 32) 4
    else if a = .ripemd160 then
      [h[0], h[1], h[2], h[3], h[4]].flatMap fun x => toLE (x.toNat % 2 ^ 32) 4
    else
      [h[0], h[1], h[2], h[3], h[4], h[5], h[6], h[7]].flatMap fun x => toBE x.toNat 8) := by
  rw [serialize_eq, toList_eq_words]
  cases a with
  | sha224 | sha256 | ripemd160 =>
    rw [wordOf_of_wordBytes_four rfl]
    rfl
  | sha384 | sha512 | sha512t224 | sha512t256 => rfl

/-- Settles O26: READ_STATE emits the serialized state, whose words and length are the algorithm's. -/
theorem readStateEmitsTheWords : Obligations.ReadStateEmitsTheWords := by
  intro s a hl
  refine ⟨execReadState_of_live hl, serialize_words a s.h, ?_⟩
  rw [serialize_length]
  cases a <;> rfl

end Sys2Proof.Machine
end

section
/-! PROOFS. What INIT, UPDATE, FINAL, COMPRESS and STATUS leave (44_digest_facade.md R310 to R330). -/

namespace Sys2Proof.Machine

/-! ### INIT and STATUS -/

theorem freshInstance_freshInstance (a : Alg) (s : State) :
    freshInstance a (freshInstance a s) = freshInstance a s := rfl

/-- Settles O19: INIT answers `freshInstance`, which loads the same constants whatever it finds. -/
theorem initLoadsFreshInstance : Obligations.InitLoadsFreshInstance := by
  intro s a hp
  have hinit := execInit_of_ne hp a
  have hagain := execInit_of_ne (s := freshInstance a s) (by simp [freshInstance]) a
  rw [freshInstance_freshInstance] at hagain
  exact ⟨hinit, (execAll_pair hinit hagain).trans hinit.symm⟩

/-- Settles O27: STATUS looks at no phase. -/
theorem statusAnswersInEveryPhase : Obligations.StatusAnswersInEveryPhase := execStatus_eq

/-! ### COMPRESS -/

/-- Settles O24: the payload's length decides between one compression and the fault. -/
theorem compressRunsOneBlock : Obligations.CompressRunsOneBlock := by
  refine fun s a data hl => ⟨execCompress_ok hl, fun hb => ?_⟩
  rw [execCompress_of_live hl, if_pos hb, raiseFault_of_ne (ne_faulted_of_live hl)]

/-! ### UPDATE -/

/-- Settles O21: UPDATE is the byte loop of R121 over the payload, told by `bufInput_spec` in blocks. -/
theorem updateAbsorbsPayload : Obligations.UpdateAbsorbsPayload := by
  intro s a data hl hs hn
  have hbytes : (s.pending ++ data).length = s.plen.toNat + data.length := by
    rw [List.length_append, pending_length (plen_lt_128 hs).le]
  obtain ⟨hh, hpending, hplen, hlen, hphase, hframe⟩ := afterUpdate_spec hs data
  obtain ⟨halg, hfcode, hcp, hresp, hinput⟩ := hframe
  refine ⟨afterUpdate a data s, execUpdate_ok hl hn, hh, by rw [blocksOf_length, hbytes], ?_, hplen,
    by rw [hlen, len_add_toNat hn], hphase, halg, hfcode, hcp, hresp, hinput,
    fun j hj hout => bufInput_buf_getElem
      (s := { s with len := s.len + BitVec.ofNat 64 data.length }) hs data j hj hout⟩
  rw [hpending, leftOver, hbytes]

/-! ### FINAL -/

/-- Settles O23: `Finish` folds H over the padded message, whose last block stays in BUF, and the digest
is taken from the H it leaves. -/
theorem finalPadsAndEmitsDigest : Obligations.FinalPadsAndEmitsDigest := by
  rintro s a z _ hl hs hz rfl
  obtain ⟨hh, hplen, hlength, hbuf⟩ := finish_spec hs hz
  obtain ⟨hlen, -, halg, hfcode, hcp, hresp, hinput⟩ := finish_frame a s
  have hemit := afterFinal_resp a s
  refine ⟨afterFinal a s, execFinal_of_live hl, hh, hlength, hemit, ?_, rfl, hplen, hlen, halg, hfcode,
    hcp, hinput, ?_, finish_buf_getElem hs⟩
  · rw [hemit, List.length_append, digest_length]
  · rw [padTail] at hlength hbuf
    rw [hlength]
    refine hbuf.trans ?_
    split <;> congr 1 <;> omega

end Sys2Proof.Machine
end

section
/-! PROOFS. One step over the bytes of a command, and a run from the bytes of INIT, UPDATEs and FINAL to
the digest (44_digest_facade.md R281, R335). -/

namespace Sys2Proof.Machine

/-! ### One step -/

/-- The state once the bytes of `i` are consumed and `rest` is left of the stream. -/
def State.consumed (s : State) (i : Instr) (rest : List Byte) : State :=
  { s with input := rest, cp := s.cp + (encode i).length }

/-- What the decoder cuts off and accepts is the encoding of the command. -/
theorem pastCommand_of_ok {s : State} {f : Framed} {i : Instr} (hf : frame s.input = some f)
    (hd : decodeCommand f.hdr f.data = .ok i) :
    s.pastCommand f = s.consumed i f.rest := by
  obtain ⟨hhdr, -, hwf⟩ := encode_of_decodeCommand hd (frame_eq_some.mp hf).2
  rw [State.pastCommand, State.consumed, Laws.EncodedLength.of_payload i hwf, ← hhdr, Nat.add_assoc]

/-- Settles O5: the command's frame is its encoding, so the step consumes that many bytes. -/
theorem stepRunsDecodedCommand : Obligations.StepRunsDecodedCommand := by
  intro s i rest h
  obtain ⟨f, hf, hd, rfl⟩ := decode_eq_command.mp h
  rw [step_of_ok hf hd, pastCommand_of_ok hf hd, State.consumed]

/-- An illegal header has no payload, so four bytes are consumed. -/
theorem pastCommand_of_error {s : State} {f : Framed} {c : FaultCode} (hf : frame s.input = some f)
    (hd : decodeCommand f.hdr f.data = .error c) :
    s.pastCommand f = { s with input := s.input.drop 4, cp := s.cp + 4 } := by
  rw [State.pastCommand, frame_rest hf, payloadLength_of_error hd]

/-- Settles O6: the header alone is consumed, and the fault is recorded where one can be raised. -/
theorem stepRaisesDecodeFault : Obligations.StepRaisesDecodeFault := by
  intro s c rest h
  obtain ⟨f, hf, hd, -⟩ := decode_eq_illegal.mp h
  rw [step_of_error hf hd]
  by_cases hp : s.phase = .faulted
  · rw [if_pos hp, raiseFault_of_faulted (s := s.pastCommand f) hp, pastCommand_of_error hf hd]
  · rw [if_neg hp, raiseFault_of_ne (s := s.pastCommand f) hp, pastCommand_of_error hf hd]

theorem decode_encode_append {i : Instr} (h : i.WellFormed) (rest : List Byte) :
    decode (encode i ++ rest) = .command i rest := by
  have hf : frame (encode i ++ rest) = some ⟨encodeHeader i, payload i, rest⟩ :=
    frame_eq_some.mpr ⟨List.append_assoc .., (payloadLength_encodeHeader h).symm⟩
  exact decode_eq_command.mpr ⟨_, hf, decodeCommand_encodeHeader i, rfl⟩

theorem step_of_encoding {s : State} {i : Instr} {rest : List Byte} (hwf : i.WellFormed)
    (hin : s.input = encode i ++ rest) : step s = exec i (s.consumed i rest) :=
  stepRunsDecodedCommand s i rest (by rw [hin, decode_encode_append hwf])

/-! ### The message absorbed since INIT -/

/-- Since INIT of `a`, UPDATEs have absorbed exactly the bytes `msg`: the registers are those of the
one-shot view of R335, whatever the cuts were. -/
structure State.Absorbed (a : Alg) (msg : List Byte) (s : State) : Prop where
  live : s.Live a
  h : s.h = hashBlocks a (initialValue a) msg
  pending : s.pending = leftOver a msg
  plen : s.plen.toNat = msg.length % blockBytes a
  len : s.len = BitVec.ofNat 64 msg.length

theorem freshInstance_absorbed (a : Alg) (s : State) : (freshInstance a s).Absorbed a [] where
  live := freshInstance_live a s
  h := (hashBlocks_of_lt (bs := []) (blockBytes_pos a) _).symm
  pending := by rw [pending_of_plen_zero rfl, leftOver_of_lt (bs := []) (blockBytes_pos a)]
  plen := (Nat.zero_mod _).symm
  len := rfl

section
variable {a : Alg} {msg : List Byte} {s : State} (hs : s.Absorbed a msg)
include hs

theorem absorbed_consumed (i : Instr) (rest : List Byte) : (s.consumed i rest).Absorbed a msg :=
  ⟨hs.live, hs.h, hs.pending, hs.plen, hs.len⟩

theorem absorbed_plen_lt : s.plen.toNat < blockBytes a := by
  rw [hs.plen]
  exact Nat.mod_lt _ (blockBytes_pos a)

theorem absorbed_afterUpdate (d : List Byte) : (afterUpdate a d s).Absorbed a (msg ++ d) := by
  obtain ⟨hh, hpending, hplen, hlen, -⟩ := afterUpdate_spec (absorbed_plen_lt hs) d
  refine ⟨afterUpdate_live hs.live d, ?_, ?_, ?_, ?_⟩
  · rw [hh, hs.h, hs.pending, ← hashBlocks_leftOver]
  · rw [hpending, hs.pending, ← leftOver_leftOver]
  · rw [hplen, hs.plen, Nat.mod_add_mod, List.length_append]
  · rw [hlen, hs.len, List.length_append, BitVec.ofNat_add]

theorem execUpdate_of_absorbed {d : List Byte} (hn : (msg ++ d).length < lengthLimit) :
    exec (.update d) s = .next (afterUpdate a d s) := by
  rw [List.length_append] at hn
  refine execUpdate_ok hs.live (Nat.lt_of_le_of_lt (Nat.add_le_add_right ?_ _) hn)
  rw [hs.len, BitVec.toNat_ofNat]
  exact Nat.mod_le _ _

/-- FINAL pads the pending bytes as R133 pads the whole message. -/
theorem finish_h_of_absorbed {z : Nat} (hz : LeastPadding a msg.length z) :
    (s.finish a).h = hashBlocks a (initialValue a)
      (msg ++ padTail a z (BitVec.ofNat 64 msg.length)) := by
  have hz' : LeastPadding a s.plen.toNat z := by
    rw [hs.plen]
    simpa only [LeastPadding, Nat.add_assoc, Nat.mod_add_mod] using hz
  obtain ⟨hh, -⟩ := finish_spec (absorbed_plen_lt hs) hz'
  rw [hh, hs.h, hs.pending, hs.len, ← hashBlocks_leftOver]

end

/-! ### The run -/

/-- UPDATE, one step. -/
theorem step_update {a : Alg} {msg d rest : List Byte} {s : State} (hs : s.Absorbed a msg)
    (hshort : d.length < 2 ^ 24) (hn : (msg ++ d).length < lengthLimit)
    (hin : s.input = encode (.update d) ++ rest) :
    ∃ t, step s = .next t ∧ t.Absorbed a (msg ++ d) ∧ t.input = rest ∧ t.resp = s.resp := by
  have hc := absorbed_consumed hs (.update d) rest
  have hexec := execUpdate_of_absorbed hc hn
  have hwf : (Instr.update d).WellFormed := decide_eq_true hshort
  exact ⟨_, (step_of_encoding hwf hin).trans hexec, absorbed_afterUpdate hc d, (exec_stream hexec).2,
    afterUpdate_resp a d _⟩

/-- The UPDATEs, one step each. -/
theorem run_updates {a : Alg} {rest : List Byte} (ds : List (List Byte)) {msg : List Byte} {s : State}
    (hs : s.Absorbed a msg) (hshort : ∀ d ∈ ds, d.length < 2 ^ 24)
    (hn : (msg ++ ds.flatten).length < lengthLimit)
    (hin : s.input = (ds.map Instr.update).flatMap encode ++ rest) :
    ∃ t, Sys2Proof.core.run ds.length s = .next t ∧ t.Absorbed a (msg ++ ds.flatten) ∧
      t.input = rest ∧ t.resp = s.resp := by
  induction ds generalizing msg s with
  | nil => exact ⟨s, rfl, by simpa using hs, hin, rfl⟩
  | cons d ds ih =>
    rw [List.forall_mem_cons] at hshort
    rw [List.map_cons, List.flatMap_cons, List.append_assoc] at hin
    rw [List.flatten_cons, ← List.append_assoc] at hn ⊢
    obtain ⟨u, hstep, hu, hinput, hsame⟩ :=
      step_update hs hshort.1 (Nat.lt_of_le_of_lt (by simp) hn) hin
    obtain ⟨t, hrun, ht, hrest, hresp⟩ := ih hu hshort.2 hn hinput
    exact ⟨t, (run_succ hstep).trans hrun, ht, hrest, hresp.trans hsame⟩

/-- FINAL, one step. -/
theorem step_final {a : Alg} {msg rest : List Byte} {s : State} {z : Nat} (hs : s.Absorbed a msg)
    (hz : LeastPadding a msg.length z) (hin : s.input = encode .final ++ rest) :
    ∃ t, step s = .next t ∧ t.input = rest ∧ t.phase = .finalized ∧ t.resp = s.resp ++
      digest a (hashBlocks a (initialValue a)
        (msg ++ padTail a z (BitVec.ofNat 64 msg.length))) := by
  have hc := absorbed_consumed hs .final rest
  have hexec := execFinal_of_live hc.live
  refine ⟨_, (step_of_encoding rfl hin).trans hexec, (exec_stream hexec).2, rfl, ?_⟩
  rw [afterFinal_resp, finish_h_of_absorbed hc hz]
  rfl

/-- Settles O46: INIT has absorbed the empty message, each UPDATE appends its payload to the message
absorbed, and FINAL emits the digest of the whole. -/
theorem commandsComputeTheDigest : Obligations.CommandsComputeTheDigest := by
  intro s a ds rest z hp hshort hn hz hin
  rw [List.cons_append, List.flatMap_cons, List.flatMap_append, List.append_assoc, List.append_assoc,
    List.flatMap_singleton] at hin
  have hinit := (step_of_encoding rfl hin).trans
    (execInit_of_ne (s := s.consumed (.init a) _) hp a)
  obtain ⟨u, hrun, habs, hrest, hresp⟩ := run_updates ds
    (freshInstance_absorbed a (s.consumed (.init a) _)) hshort hn rfl
  obtain ⟨t, hfinal, hinput, hphase, hemit⟩ := step_final habs hz hrest
  refine ⟨t, ?_, hinput, hphase, hemit.trans (by rw [hresp]; rfl)⟩
  exact (run_succ hinit).trans ((run_add ds.length 1 _ u hrun).trans (run_succ hfinal))

end Sys2Proof.Machine
end

section
/-! PROOFS. The fault action and the Faulted phase (60_exceptions.md R341, R343 to R347). -/

namespace Sys2Proof.Machine

/-! ### Commands outside their phases -/

/-- Settles O18: in Finalized the phase checks raise the command's own code, and in Faulted they discard
it. -/
theorem commandsOutsideTheirPhases : Obligations.CommandsOutsideTheirPhases := by
  refine fun s d => ⟨fun hp => ?_, fun hp i hi => exec_of_faulted hp hi⟩
  have hraise : ∀ (c : FaultCode) (body : Alg → State), s.withInstance c body
      = .next { s with phase := .faulted, fcode := some c } := fun c body => by
    rw [withInstance_of_finalized hp, raiseFault_of_ne (by simp [hp])]
  exact ⟨hraise _ _, execFinal_of_finalized hp, hraise _ _, hraise _ _⟩

/-- Settles O25: the check of UPDATE is on the exact sum, and below the limit neither the count nor its
bit count wraps. -/
theorem lengthOverflowIsExact : Obligations.LengthOverflowIsExact := by
  refine fun s a d hl => ⟨fun hn => ?_, fun hn => ?_⟩
  · rw [execUpdate_of_live hl, if_pos (show lengthLimit ≤ _ from hn),
      raiseFault_of_ne (ne_faulted_of_live hl)]
  · have hlen : (afterUpdate a d s).len.toNat = s.len.toNat + d.length := by
      rw [afterUpdate_len, len_add_toNat hn]
    exact ⟨_, execUpdate_ok hl hn, rfl, afterUpdate_fcode a d s, hlen, by omega⟩

/-! ### The fault action -/

/-- A command leads to the Faulted phase only by raising a fault. -/
theorem exec_raises {i : Instr} {s t : State} (hx : ExecCase s i t) (hp : s.phase ≠ .faulted)
    (ht : t.phase = .faulted) : ∃ c, t = s.raiseFault c := by
  cases hx with
  | discarded hf _ => exact absurd hf hp
  | raised _ _ _ => exact ⟨_, rfl⟩
  | init _ => cases ht
  | update _ _ => cases ht
  | final _ => cases ht
  | compress _ _ => cases ht
  | readState _ => exact absurd ht hp
  | status => exact absurd ht hp

/-- Settles O11: a wait keeps the phase, and both an illegal header and a command that faults raise the
fault on the state whose command is consumed. -/
theorem faultsArePrecise : Obligations.FaultsArePrecise := by
  intro s t hp h ht
  rcases step_cases h with ⟨-, rfl⟩ | ⟨f, c, hf, -, rfl⟩ | ⟨f, i, hf, -, hx⟩
  · exact absurd ht hp
  · exact ⟨f, c, hf, raiseFault_of_ne (s := s.pastCommand f) hp c⟩
  · obtain ⟨c, rfl⟩ := exec_raises (execCase_of_next hx) hp ht
    exact ⟨f, c, hf, raiseFault_of_ne (s := s.pastCommand f) hp c⟩

/-! ### The Faulted phase -/

/-- One header alone is STATUS. -/
theorem decodeCommand_eq_status {hdr : Word32} {data : List Byte}
    (hl : data.length = payloadLength hdr) :
    decodeCommand hdr data = .ok .status ↔ hdr = 0x06000000#32 := by
  constructor
  · intro h
    exact (encode_of_decodeCommand h hl).1
  · rintro rfl
    rfl

/-- In the Faulted phase a whole command that is not STATUS, legal or not, is consumed and nothing else. -/
theorem step_discards {s : State} {f : Framed} (hp : s.phase = .faulted)
    (hf : frame s.input = some f) (hd : decodeCommand f.hdr f.data ≠ .ok .status) :
    step s = .next (s.pastCommand f) := by
  cases hv : decodeCommand f.hdr f.data with
  | error c => rw [step_of_error hf hv, raiseFault_of_faulted (s := s.pastCommand f) hp]
  | ok i =>
    have hi : i ≠ .status := by
      rintro rfl
      exact hd hv
    rw [step_of_ok hf hv, exec_of_faulted (s := s.pastCommand f) hp hi]

/-- Settles O13: the header 0x06000000 is STATUS, which looks at no phase, and every other command is
discarded. -/
theorem faultedPhaseAnswersStatusOnly : Obligations.FaultedPhaseAnswersStatusOnly := by
  intro s f hp hf
  have hstatus := decodeCommand_eq_status (frame_eq_some.mp hf).2
  by_cases hh : f.hdr = 0x06000000#32
  · rw [step_of_ok hf (hstatus.mpr hh), execStatus_eq, if_pos hh]
    rfl
  · rw [step_discards hp hf (mt hstatus.mp hh), if_neg hh]
    rfl

theorem step_keeps_faulted {s t : State} (hp : s.phase = .faulted) (h : step s = .next t) :
    t.phase = .faulted ∧ t.fcode = s.fcode := by
  cases hf : frame s.input with
  | none =>
    rw [step_of_incomplete hf] at h
    cases h
    exact ⟨hp, rfl⟩
  | some f =>
    rw [faultedPhaseAnswersStatusOnly s f hp hf] at h
    cases h
    exact ⟨hp, rfl⟩

theorem event_keeps_faulted {s t : State} {e : Event} (hp : s.phase = .faulted) (he : e ≠ .reset)
    (h : s.event e = .next t) : t.phase = .faulted ∧ t.fcode = s.fcode := by
  cases e with
  | write bs =>
    cases h
    exact ⟨hp, rfl⟩
  | reset => exact absurd rfl he
  | step => exact step_keeps_faulted hp h

/-- The first of some events answers, and the rest run from its state. -/
theorem events_cons_eq_next {s t : State} {e : Event} {es : List Event}
    (h : s.events (e :: es) = .next t) : ∃ u, s.event e = .next u ∧ u.events es = .next t := by
  rw [State.events] at h
  split at h
  · exact ⟨_, ‹_›, h⟩
  · cases h
  · cases h

theorem events_keep_faulted {es : List Event} {s t : State} (hp : s.phase = .faulted)
    (hes : .reset ∉ es) (h : s.events es = .next t) : t.phase = .faulted ∧ t.fcode = s.fcode := by
  induction es generalizing s with
  | nil =>
    cases h
    exact ⟨hp, rfl⟩
  | cons e es ih =>
    obtain ⟨he, hrest⟩ := List.ne_and_not_mem_of_not_mem_cons hes
    obtain ⟨u, hu, hut⟩ := events_cons_eq_next h
    obtain ⟨hpu, hfu⟩ := event_keeps_faulted hp he.symm hu
    obtain ⟨hpt, hft⟩ := ih hpu hrest hut
    exact ⟨hpt, hft.trans hfu⟩

/-- Settles O14: every event but reset keeps PHASE and FCODE, and the state after reset is a constant. -/
theorem faultedIsLeftOnlyByReset : Obligations.FaultedIsLeftOnlyByReset :=
  ⟨fun _ _ _ hp hes h => events_keep_faulted hp hes h, fun _ => ⟨State.reset, rfl, rfl, rfl⟩⟩

end Sys2Proof.Machine
end

section
/-! PROOFS. The order in which fault conditions are checked (60_exceptions.md R342): those of the header by
the decoder, then those of the phase, then the command's own. -/

namespace Sys2Proof

/-! ### The operand of INIT as a number -/

theorem headerReservedA_eq_zero_iff {hdr : Word32} :
    headerReservedA hdr = 0 ↔ (headerOperand hdr).toNat < 16 := by
  have hlt := (headerOperand hdr).isLt
  rw [headerReservedA_eq, ← BitVec.toNat_inj, BitVec.extractLsb_toNat, Nat.shiftRight_eq_div_pow]
  simp only [BitVec.ofNat_eq_ofNat, BitVec.toNat_ofNat]
  omega

theorem headerAlg_toNat {hdr : Word32} (h : (headerOperand hdr).toNat < 16) :
    (headerAlg hdr).toNat = (headerOperand hdr).toNat := by
  rw [headerAlg_eq, BitVec.toNat_setWidth, Nat.mod_eq_of_lt h]

theorem exists_algOfCode :
    ∀ c : BitVec 4, c.toNat ≠ 0 → c.toNat < 8 → ∃ a, algOfCode c = some a := by
  simp only [← Option.isSome_iff_exists]
  decide

/-! ### The verdict on an opcode and an operand as numbers -/

theorem headerOp_of_toNat {hdr : Word32} {op : Nat} {k : Byte} (hop : op = (headerOp hdr).toNat)
    (hk : op = k.toNat) : headerOp hdr = k :=
  BitVec.eq_of_toNat_eq (hop.symm.trans hk)

section
variable {hdr : Word32} {op n : Nat} (hop : op = (headerOp hdr).toNat)
  (hn : n = (headerOperand hdr).toNat)
include hop hn

theorem payload_length_of_toNat {data : List Byte} (hl : data.length = payloadLength hdr)
    (h : op = 2 ∨ op = 4) : data.length = n := by
  rw [hl, payloadLength, hn,
    if_pos (h.imp (headerOp_of_toNat (k := 2) hop) (headerOp_of_toNat (k := 4) hop))]

theorem decodeCommand_reserved_of_toNat
    (h : (op = 1 ∧ 16 ≤ n) ∨ ((op = 3 ∨ op = 5 ∨ op = 6) ∧ n ≠ 0)) (data : List Byte) :
    decodeCommand hdr data = .error .reservedOperand := by
  have hcode {k : Byte} := headerOp_of_toNat hop (k := k)
  rcases h with ⟨h1, h16⟩ | ⟨h356, h0⟩
  · refine decodeCommand_reservedA (hcode h1) ?_ data
    rw [Ne, headerReservedA_eq_zero_iff, ← hn]
    exact not_lt.mpr h16
  · exact decodeCommand_reservedZ (h356.imp hcode (Or.imp hcode hcode))
      (ne_of_apply_ne BitVec.toNat (hn ▸ h0)) data

theorem decodeCommand_badAlg_of_toNat (h1 : op = 1) (h16 : n < 16) (hbad : n = 0 ∨ 8 ≤ n)
    (data : List Byte) : decodeCommand hdr data = .error .badAlg := by
  rw [hn] at h16 hbad
  rw [← headerAlg_toNat h16] at hbad
  exact decodeCommand_badAlg (headerOp_of_toNat hop h1) (headerReservedA_eq_zero_iff.mpr h16)
    (algOfCode_eq_none hbad) data

theorem decodeCommand_init_of_toNat (h1 : op = 1) (h0 : n ≠ 0) (h8 : n < 8) (data : List Byte) :
    ∃ a, decodeCommand hdr data = .ok (.init a) := by
  have h16 : (headerOperand hdr).toNat < 16 := by omega
  rw [hn, ← headerAlg_toNat h16] at h0 h8
  obtain ⟨a, ha⟩ := exists_algOfCode _ h0 h8
  exact ⟨a, decodeCommand_init (headerOp_of_toNat hop h1) (headerReservedA_eq_zero_iff.mpr h16) ha data⟩

theorem eq_header_of_toNat {k : Byte} (hk : op = k.toNat) (h0 : n = 0) : hdr = header k 0 :=
  hdr_eq_header (headerOp_of_toNat hop hk) (BitVec.eq_of_toNat_eq (hn.symm.trans h0))

end

end Sys2Proof

namespace Sys2Proof.Machine

/-! ### FCODE after a command -/

/-- The phase checks come before the command's own check, whose outcome is `o`. -/
theorem withInstance_fcode {s t : State} {c : FaultCode} {body : Alg → State} {o : Option FaultCode}
    (hp : s.phase ≠ .faulted) (h : s.withInstance c body = .next t)
    (hbody : ∀ a, s.Live a → (body a).fcode = o) :
    t.fcode = if s.phase = .idle then some .noInstance
      else if s.phase = .finalized then some c else o := by
  rcases withInstance_eq_next h with ⟨hf, -⟩ | ⟨hidle, rfl⟩ | ⟨hfin, rfl⟩ | ⟨a, hl, rfl⟩
  · exact absurd hf hp
  · rw [if_pos hidle, raiseFault_fcode_of_ne hp]
  · rw [if_neg (by simp [hfin]), if_pos hfin, raiseFault_fcode_of_ne hp]
  · rw [hbody a hl]
    obtain ⟨hlive | hlive, -⟩ := hl <;> simp [hlive]

section
variable {s t : State} (hp : s.phase ≠ .faulted) (hc : s.fcode = none)
include hp hc

theorem exec_update_fcode {d : List Byte} (h : exec (.update d) s = .next t) :
    t.fcode = if s.phase = .idle then some .noInstance
      else if s.phase = .finalized then some .updateAfterFinal
      else if 2 ^ 61 ≤ s.len.toNat + d.length then some .lengthOverflow else none := by
  refine withInstance_fcode hp h fun a _ => ?_
  rw [lengthLimit]
  split
  · exact raiseFault_fcode_of_ne hp _
  · exact (afterUpdate_fcode a d s).trans hc

theorem exec_final_fcode (h : exec .final s = .next t) :
    t.fcode = if s.phase = .idle then some .noInstance
      else if s.phase = .finalized then some .doubleFinal else none :=
  withInstance_fcode hp h fun a _ => (afterFinal_fcode a s).trans hc

theorem exec_compress_fcode {d : List Byte} (h : exec (.compress d) s = .next t) :
    t.fcode = if s.phase = .idle then some .noInstance
      else if s.phase = .finalized then some .useAfterFinal
      else if some d.length ≠ s.alg.map blockBytes then some .blockLength else none := by
  refine withInstance_fcode hp h fun a hl => ?_
  simp only [hl.2, Option.map_some, ne_eq, Option.some.injEq]
  split
  · exact raiseFault_fcode_of_ne hp _
  · exact hc

theorem exec_readState_fcode (h : exec .readState s = .next t) :
    t.fcode = if s.phase = .idle then some .noInstance
      else if s.phase = .finalized then some .useAfterFinal else none :=
  withInstance_fcode hp h fun _ _ => hc

theorem exec_init_fcode {a : Alg} (h : exec (.init a) s = .next t) : t.fcode = none := by
  rw [execInit_of_ne hp] at h
  cases h
  exact hc

end

theorem exec_status_fcode {s t : State} (h : exec .status s = .next t) : t.fcode = s.fcode := by
  rw [execStatus_eq] at h
  cases h
  rfl

/-! ### The order of R342 -/

theorem step_fcode_of_error {s t : State} {f : Framed} {c : FaultCode} (hp : s.phase ≠ .faulted)
    (hf : frame s.input = some f) (ht : step s = .next t)
    (hd : decodeCommand f.hdr f.data = .error c) : t.fcode = some c := by
  rw [step_of_error hf hd] at ht
  cases ht
  exact raiseFault_fcode_of_ne (s := s.pastCommand f) hp c

/-- Settles O12: the first three conditions are the decoder's verdict on the header; where none of them
holds, the opcode names a command, and its phase checks and its own check follow in the order of R342. -/
theorem firstFaultConditionIsReported : Obligations.FirstFaultConditionIsReported := by
  intro s f hi hp hf op n hop hn
  obtain ⟨t, ht⟩ := step_next_of_inv hi
  refine ⟨t, ht, ?_, (stepKeepsInvariant s t hi ht).fcode⟩
  have herror {c : FaultCode} := step_fcode_of_error (c := c) hp hf ht
  by_cases hillegal : op = 0 ∨ 7 ≤ op
  · rw [if_pos hillegal]
    exact herror (decodeCommand_illegalOpcode (hop ▸ hillegal) _)
  rw [if_neg hillegal]
  by_cases hreserved : (op = 1 ∧ 16 ≤ n) ∨ ((op = 3 ∨ op = 5 ∨ op = 6) ∧ n ≠ 0)
  · rw [if_pos hreserved]
    exact herror (decodeCommand_reserved_of_toNat hop hn hreserved _)
  rw [if_neg hreserved]
  by_cases hbad : op = 1 ∧ (n = 0 ∨ 8 ≤ n)
  · rw [if_pos hbad]
    exact herror (decodeCommand_badAlg_of_toNat hop hn hbad.1 (by omega) hbad.2 _)
  rw [if_neg hbad]
  have hpast : (s.pastCommand f).phase ≠ .faulted := hp
  have hnone : (s.pastCommand f).fcode = none := inv_fcode_none (s := s) hi hp
  have hexec (i : Instr) (hd : decodeCommand f.hdr f.data = .ok i) :
      exec i (s.pastCommand f) = .next t := (step_of_ok hf hd).symm.trans ht
  have hdata := payload_length_of_toNat hop hn (frame_eq_some.mp hf).2
  obtain h1 | h2 | h3 | h4 | h5 | h6 :
      op = 1 ∨ op = 2 ∨ op = 3 ∨ op = 4 ∨ op = 5 ∨ op = 6 := by omega
  · obtain ⟨a, hd⟩ := decodeCommand_init_of_toNat hop hn h1 (by omega) (by omega) f.data
    rw [exec_init_fcode hpast hnone (hexec _ hd)]
    simp [h1]
  · rw [exec_update_fcode hpast hnone (hexec _ (decodeCommand_update (headerOp_of_toNat hop h2) _)),
      pastCommand_phase, pastCommand_len, hdata (.inl h2)]
    simp [h2]
  · have hd : decodeCommand f.hdr f.data = .ok .final := by
      rw [eq_header_of_toNat (k := 3) hop hn h3 (by omega)]
      rfl
    rw [exec_final_fcode hpast hnone (hexec _ hd), pastCommand_phase]
    simp [h3]
  · rw [exec_compress_fcode hpast hnone (hexec _ (decodeCommand_compress (headerOp_of_toNat hop h4) _)),
      pastCommand_phase, pastCommand_alg, hdata (.inr h4)]
    simp [h4]
  · have hd : decodeCommand f.hdr f.data = .ok .readState := by
      rw [eq_header_of_toNat (k := 5) hop hn h5 (by omega)]
      rfl
    rw [exec_readState_fcode hpast hnone (hexec _ hd), pastCommand_phase]
    simp [h5]
  · have hd : decodeCommand f.hdr f.data = .ok .status := by
      rw [eq_header_of_toNat (k := 6) hop hn h6 (by omega)]
      rfl
    rw [exec_status_fcode (hexec _ hd), hnone]
    simp [h6]

end Sys2Proof.Machine
end

section
/-! PROOFS. Which commands Idle allows, waiting for bytes, and the run over a stream of whole commands
(70_reset_and_hazards.md R381, R392, R398). -/

namespace Sys2Proof.Machine

/-! ### The Idle phase -/

theorem exec_of_idle {s : State} (hp : s.phase = .idle) {i : Instr} (hinit : ∀ a, i ≠ .init a)
    (hstatus : i ≠ .status) : exec i s = .next (s.raiseFault .noInstance) := by
  rcases phaseChecked_of_ne hinit hstatus with ⟨d, rfl⟩ | rfl | ⟨d, rfl⟩ | rfl
  all_goals exact withInstance_of_idle hp _ _

/-- Settles O17: INIT makes a Fresh instance, STATUS keeps the phase, and the phase check of every other
command finds no instance. -/
theorem idleAllowsOnlyInitAndStatus : Obligations.IdleAllowsOnlyInitAndStatus := by
  intro s i hp
  have hne : s.phase ≠ .faulted := by simp [hp]
  by_cases hi : (∃ a, i = .init a) ∨ i = .status
  · rcases hi with ⟨a, rfl⟩ | rfl
    · exact ⟨_, execInit_of_ne hne a, fun _ => Phase.noConfusion, fun h => absurd (.inl ⟨a, rfl⟩) h⟩
    · exact ⟨_, execStatus_eq s, fun _ => hne, fun h => absurd (.inr rfl) h⟩
  · obtain ⟨hinit, hstatus⟩ := not_or.mp hi
    exact ⟨_, exec_of_idle hp (not_exists.mp hinit) hstatus, fun h => absurd h hi,
      fun _ => raiseFault_of_ne hne _⟩

/-! ### Waiting -/

theorem run_of_incomplete {s : State} (h : frame s.input = none) (k : Nat) :
    Sys2Proof.core.run k s = .next s := by
  induction k with
  | zero => rfl
  | succ k ih => rw [run_succ (step_of_incomplete h), ih]

/-- Settles O8: either lack of bytes leaves the decoder without a command, and every step then waits. -/
theorem coreWaitsForBytes : Obligations.CoreWaitsForBytes := by
  refine fun s k h => run_of_incomplete (frame_eq_none.mpr ?_) k
  rcases h with hheader | ⟨op, x, y, z, more, hin, hop, hpayload⟩
  · exact .inl hheader
  · right
    rw [hin, payloadLength_frontHeader_cons, if_pos hop]
    simp only [List.length_cons]
    omega

/-! ### A stream of whole commands -/

/-- Settles O10, by induction on the commands: the first is framed at the front of the stream, and the
step that consumes it leaves the others behind under the invariant. -/
theorem wholeStreamIsConsumed : Obligations.WholeStreamIsConsumed := by
  intro s cmds hi hlen hin
  induction cmds generalizing s with
  | nil => exact ⟨s, rfl, hin, by rw [hin]; rfl⟩
  | cons c cmds ih =>
    obtain ⟨hc, hcmds⟩ := List.forall_mem_cons.mp hlen
    rw [List.flatMap_cons, List.append_assoc] at hin
    have hf : frame s.input = some ⟨c.1, c.2, cmds.flatMap fun c => headerBytes c.1 ++ c.2⟩ :=
      frame_eq_some.mpr ⟨hin, hc⟩
    obtain ⟨u, hstep⟩ := step_next_of_inv hi
    obtain ⟨hcp, hinput⟩ := step_stream hf hstep
    obtain ⟨t, hrun, hended, htcp⟩ := ih u (stepKeepsInvariant s u hi hstep) hcmds hinput
    refine ⟨t, (run_succ hstep).trans hrun, hended, ?_⟩
    rw [htcp, hcp, hinput, frame_length hf]
    simp only [Nat.add_assoc]

end Sys2Proof.Machine
end

section
/-! PROOFS. The decoder and the encoder are inverse to each other (30_encoding.md R90 to R96). -/

namespace Sys2Proof.Machine

/-- Settles O2: the encoding is framed as the command's own header and payload, and the verdict on these
is the command. -/
theorem decodeEncodeRoundTrip : Obligations.DecodeEncodeRoundTrip :=
  fun _ rest hwf => decode_encode_append hwf rest

/-- Settles O3: the frame is the stream cut in three, and an accepted header and payload are those of the
command. -/
theorem decodedBytesAreTheEncoding : Obligations.DecodedBytesAreTheEncoding := by
  intro bs rest i h
  obtain ⟨f, hf, hd, rfl⟩ := decode_eq_command.mp h
  obtain ⟨hbs, hlen⟩ := frame_eq_some.mp hf
  obtain ⟨hhdr, hdata, hwf⟩ := encode_of_decodeCommand hd hlen
  exact ⟨hwf, by rw [hbs, encode, hhdr, hdata, List.append_assoc]⟩

end Sys2Proof.Machine
end

section
/-! PROOFS. Runs from a state of the invariant, whatever the host does (10_state.md R43, 60_exceptions.md
R340). -/

namespace Sys2Proof.Machine

/-- Under the invariant every event answers a state of the invariant. -/
theorem event_next_of_inv {s : State} (hi : s.Inv) (e : Event) :
    ∃ t, s.event e = .next t ∧ t.Inv := by
  cases e with
  | write bs => exact ⟨_, rfl, hostWrite_inv hi bs⟩
  | reset => exact ⟨_, rfl, resetMeetsInvariant⟩
  | step =>
    obtain ⟨t, ht⟩ := step_next_of_inv hi
    exact ⟨t, ht, stepKeepsInvariant s t hi ht⟩

theorem events_cons_of_next {s t : State} {e : Event} (h : s.event e = .next t) (es : List Event) :
    s.events (e :: es) = t.events es := by
  rw [State.events, h]

/-- Under the invariant every sequence of events answers a state of the invariant. -/
theorem events_next_of_inv {s : State} (hi : s.Inv) (es : List Event) :
    ∃ t, s.events es = .next t ∧ t.Inv := by
  induction es generalizing s with
  | nil => exact ⟨s, rfl, hi⟩
  | cons e es ih =>
    obtain ⟨u, hu, hui⟩ := event_next_of_inv hi e
    rw [events_cons_of_next hu]
    exact ih hui

/-- Settles O42, by induction on the events: each one answers, and its state meets the invariant again. -/
theorem everyRunIsSafe : Obligations.EveryRunIsSafe := by
  intro s hi
  constructor
  · intro es
    obtain ⟨t, ht, -⟩ := events_next_of_inv hi es
    exact ⟨t, ht⟩
  · intro es t h
    obtain ⟨u, hu, hui⟩ := events_next_of_inv hi es
    cases hu.symm.trans h
    exact hui

end Sys2Proof.Machine
end
